-- ==== Sys2Proof/Word.lean ====
section
/-! DEFINITION. The word types of the LA32R core (spec/00_scope.md R2, R6; spec/10_state.md R10, R13). -/

namespace Sys2Proof

/-- The smallest addressable unit of memory, 8 bits (R44, R60). -/
abbrev Byte := BitVec 8

/-- General registers, the pc, virtual and physical addresses and CSRs are 32 bits wide (R2). -/
abbrev Word := BitVec 32

/-- The number of a general register as an instruction holds it, 5 bits (R81). -/
abbrev Reg := BitVec 5

/-- The number of a CSR as an instruction holds it, 14 bits (R13, R83). -/
abbrev CsrNumber := BitVec 14

/-- A vector with one bit for each interrupt number 0 to 12 (R143, R146). -/
abbrev IntVec := BitVec 13

end Sys2Proof
end

