-- ==== Sys2Proof/Machine/Bits.lean ====
section
/-! DEFINITION. Bit fields (spec/00_scope.md R6) and little-endian byte order (spec/20_memory.md R61). -/

namespace Sys2Proof.Machine

/-- The field `w[lo + n - 1 : lo]` (R6). -/
def field (w : Word) (lo n : Nat) : BitVec n := w.extractLsb' lo n

/-- The one bit `w[i]` as a truth value (R6). -/
def bit (w : Word) (i : Nat) : Bool := w.getLsbD i

/-- A field put at bits `lo` and up of a word, all other bits 0. -/
def place {n : Nat} (v : BitVec n) (lo : Nat) : Word := v.setWidth 32 <<< lo

/-- A one-bit field put at bit `i` of a word. -/
def placeBit (b : Bool) (i : Nat) : Word := place (BitVec.ofBool b) i

/-- Byte `k` of a word: byte 0 is bits 7:0 and stands at the lowest address (R61). -/
def byteOf (w : Word) (k : Nat) : Byte := w.extractLsb' (8 * k) 8

/-- The four bytes of a word in the order memory holds them (R61, R80). -/
def wordBytes (w : Word) : List Byte := [byteOf w 0, byteOf w 1, byteOf w 2, byteOf w 3]

/-- The word four bytes hold, the first the lowest in memory (R61). -/
def ofBytes (b0 b1 b2 b3 : Byte) : Word := place b0 0 ||| place b1 8 ||| place b2 16 ||| place b3 24

end Sys2Proof.Machine
end

