-- ==== Sys2Proof/Syntax.lean ====
section
/-! DEFINITION. The instructions of spec/opcode_table.json, one constructor a row (spec/30_encoding.md R81 to R84).
Fields carry the names and widths of the encoding. -/

namespace Sys2Proof

inductive Instr where
  /-- CSRRD `rd, csr` (R102). -/
  | csrrd (rd : Reg) (csr : CsrNumber)
  /-- CSRWR `rd, csr` (R103). -/
  | csrwr (rd : Reg) (csr : CsrNumber)
  /-- CSRXCHG `rd, rj, csr` (R104). -/
  | csrxchg (rd rj : Reg) (csr : CsrNumber)
  /-- ERTN (R110). -/
  | ertn
  /-- ORI `rd, rj, ui12` (R121). -/
  | ori (rd rj : Reg) (ui12 : BitVec 12)
  /-- LU12I.W `rd, si20` (R122). -/
  | lu12iw (rd : Reg) (si20 : BitVec 20)
  /-- ANDN `rd, rj, rk` (R123). -/
  | andn (rd rj rk : Reg)
  /-- OR `rd, rj, rk` (R124). -/
  | or (rd rj rk : Reg)
  /-- LD.W `rd, rj, si12` (R125). -/
  | ldw (rd rj : Reg) (si12 : BitVec 12)
  /-- ST.W `rd, rj, si12` (R126). -/
  | stw (rd rj : Reg) (si12 : BitVec 12)
  /-- SYSCALL `code` (R127). -/
  | syscall (code : BitVec 15)
  /-- BREAK `code` (R128). -/
  | brk (code : BitVec 15)
deriving DecidableEq, Repr

end Sys2Proof
end

