-- ==== Sys2Proof/WellFormed.lean ====
section
/-! DEFINITION. Which terms of `Instr` are instructions of the hardware. The widths of the fields are in the
types; one check is left (spec/30_encoding.md R82). -/

namespace Sys2Proof

/-- R82: CSRXCHG cannot use r0 or r1 as its mask register, since `rj` = 0 and 1 encode CSRRD and CSRWR. -/
def maskRegisterOk (rj : Reg) : Bool := decide (2 ≤ rj.toNat)

/-- The instructions that have an encoding. -/
def Instr.wellFormed : Instr → Bool
  | .csrrd _ _ => true
  | .csrwr _ _ => true
  | .csrxchg _ rj _ => maskRegisterOk rj
  | .ertn => true
  | .ori _ _ _ => true
  | .lu12iw _ _ => true
  | .andn _ _ _ => true
  | .or _ _ _ => true
  | .ldw _ _ _ => true
  | .stw _ _ _ => true
  | .syscall _ => true
  | .brk _ => true

end Sys2Proof
end

