-- ==== Sys2Proof/Decode.lean ====
section
/-! DEFINITION. The decoder, the encoder and the expansion of the pseudo-instruction LI (spec/30_encoding.md).
The decoder follows the match and mask pairs of R84; the encoder follows the formats of R81, so the two are
written from different tables of the spec. -/

namespace Sys2Proof

open Machine

/-- A row of the opcode map: a word belongs to it when `word & mask == match` (R84). -/
structure OpcodeRow where
  mnemonic : String
  pattern  : Word
  mask     : Word
deriving DecidableEq, Repr

/-- `word & mask == match` (R84). -/
def rowHits (r : OpcodeRow) (w : Word) : Bool := w &&& r.mask == r.pattern

def rowCsrrd   : OpcodeRow := ⟨"CSRRD",   0x04000000#32, 0xFF0003E0#32⟩
def rowCsrwr   : OpcodeRow := ⟨"CSRWR",   0x04000020#32, 0xFF0003E0#32⟩
def rowCsrxchg : OpcodeRow := ⟨"CSRXCHG", 0x04000000#32, 0xFF000000#32⟩
def rowErtn    : OpcodeRow := ⟨"ERTN",    0x06483800#32, 0xFFFFFFFF#32⟩
def rowOri     : OpcodeRow := ⟨"ORI",     0x03800000#32, 0xFFC00000#32⟩
def rowLu12iw  : OpcodeRow := ⟨"LU12I.W", 0x14000000#32, 0xFE000000#32⟩
def rowAndn    : OpcodeRow := ⟨"ANDN",    0x00168000#32, 0xFFFF8000#32⟩
def rowOr      : OpcodeRow := ⟨"OR",      0x00150000#32, 0xFFFF8000#32⟩
def rowLdw     : OpcodeRow := ⟨"LD.W",    0x28800000#32, 0xFFC00000#32⟩
def rowStw     : OpcodeRow := ⟨"ST.W",    0x29800000#32, 0xFFC00000#32⟩
def rowSyscall : OpcodeRow := ⟨"SYSCALL", 0x002B0000#32, 0xFFFF8000#32⟩
def rowBreak   : OpcodeRow := ⟨"BREAK",   0x002A0000#32, 0xFFFF8000#32⟩

/-- The opcode map (R84). -/
def opcodeTable : List OpcodeRow :=
  [rowCsrrd, rowCsrwr, rowCsrxchg, rowErtn, rowOri, rowLu12iw, rowAndn, rowOr, rowLdw, rowStw, rowSyscall, rowBreak]

/-- The row of R84 that stands for an instruction. -/
def rowOf : Instr → OpcodeRow
  | .csrrd _ _ => rowCsrrd
  | .csrwr _ _ => rowCsrwr
  | .csrxchg _ _ _ => rowCsrxchg
  | .ertn => rowErtn
  | .ori _ _ _ => rowOri
  | .lu12iw _ _ => rowLu12iw
  | .andn _ _ _ => rowAndn
  | .or _ _ _ => rowOr
  | .ldw _ _ _ => rowLdw
  | .stw _ _ _ => rowStw
  | .syscall _ => rowSyscall
  | .brk _ => rowBreak

/-- Why bytes are no instruction of the table. -/
inductive DecodeError where
  /-- Fewer than the four bytes of an instruction (R80). -/
  | truncated
  /-- The word matches no row of R84: it belongs to the base instruction set (R9, R85), never INE. -/
  | notInTable (w : Word)
deriving DecidableEq, Repr

def fieldRd (w : Word) : Reg := field w 0 5
def fieldRj (w : Word) : Reg := field w 5 5
def fieldRk (w : Word) : Reg := field w 10 5
def fieldCsr (w : Word) : CsrNumber := field w 10 14
def fieldI12 (w : Word) : BitVec 12 := field w 10 12
def fieldI20 (w : Word) : BitVec 20 := field w 5 20
def fieldCode (w : Word) : BitVec 15 := field w 0 15

/-- The decoder on words (R84). The CSR opcode's `rj` field is tested for 0 and 1 before a word is taken as
CSRXCHG (R82). -/
def decodeWord (w : Word) : Except DecodeError Instr :=
  if rowHits rowCsrrd w then .ok (.csrrd (fieldRd w) (fieldCsr w))
  else if rowHits rowCsrwr w then .ok (.csrwr (fieldRd w) (fieldCsr w))
  else if rowHits rowCsrxchg w && maskRegisterOk (fieldRj w) then
    .ok (.csrxchg (fieldRd w) (fieldRj w) (fieldCsr w))
  else if rowHits rowErtn w then .ok .ertn
  else if rowHits rowOri w then .ok (.ori (fieldRd w) (fieldRj w) (fieldI12 w))
  else if rowHits rowLu12iw w then .ok (.lu12iw (fieldRd w) (fieldI20 w))
  else if rowHits rowAndn w then .ok (.andn (fieldRd w) (fieldRj w) (fieldRk w))
  else if rowHits rowOr w then .ok (.or (fieldRd w) (fieldRj w) (fieldRk w))
  else if rowHits rowLdw w then .ok (.ldw (fieldRd w) (fieldRj w) (fieldI12 w))
  else if rowHits rowStw w then .ok (.stw (fieldRd w) (fieldRj w) (fieldI12 w))
  else if rowHits rowSyscall w then .ok (.syscall (fieldCode w))
  else if rowHits rowBreak w then .ok (.brk (fieldCode w))
  else .error (.notInTable w)

/-- The decoder on memory bytes, lowest address first: the instruction and the bytes after it (R80). -/
def decodeBytes : List Byte → Except DecodeError (Instr × List Byte)
  | b0 :: b1 :: b2 :: b3 :: rest =>
    match decodeWord (ofBytes b0 b1 b2 b3) with
    | .ok i => .ok (i, rest)
    | .error e => .error e
  | _ => .error .truncated

/-- The decoder on a word of spec/opcode_table.json: `nbits` bits of `w`, all higher bits 0, laid out in memory
order. -/
def decodeTableWord (nbits w : Nat) : Option Instr :=
  match decodeBytes (wordBytes (BitVec.ofNat 32 (w % 2 ^ nbits))) with
  | .ok (i, _) => some i
  | .error _ => none

/-- Format CSR: `op8[31:24] csr[23:10] rj[9:5] rd[4:0]` with op8 = 0x04 (R81, R82). -/
def formatCsr (csr : CsrNumber) (rj rd : Reg) : Word :=
  place 0x04#8 24 ||| place csr 10 ||| place rj 5 ||| place rd 0

/-- Format 3R: `op17[31:15] rk[14:10] rj[9:5] rd[4:0]` (R81). -/
def format3R (op17 : BitVec 17) (rk rj rd : Reg) : Word :=
  place op17 15 ||| place rk 10 ||| place rj 5 ||| place rd 0

/-- Format 2RI12: `op10[31:22] i12[21:10] rj[9:5] rd[4:0]` (R81). -/
def format2RI12 (op10 : BitVec 10) (i12 : BitVec 12) (rj rd : Reg) : Word :=
  place op10 22 ||| place i12 10 ||| place rj 5 ||| place rd 0

/-- Format 1RI20: `op7[31:25] i20[24:5] rd[4:0]` (R81). -/
def format1RI20 (op7 : BitVec 7) (i20 : BitVec 20) (rd : Reg) : Word :=
  place op7 25 ||| place i20 5 ||| place rd 0

/-- Format CODE15: `op17[31:15] code[14:0]` (R81). -/
def formatCode15 (op17 : BitVec 17) (code : BitVec 15) : Word :=
  place op17 15 ||| place code 0

/-- The word of an instruction, from the formats of R81 and the opcode bits of R84's patterns. -/
def encode : Instr → Word
  | .csrrd rd csr => formatCsr csr 0#5 rd
  | .csrwr rd csr => formatCsr csr 1#5 rd
  | .csrxchg rd rj csr => formatCsr csr rj rd
  | .ertn => 0b00000110010010000011100000000000#32
  | .ori rd rj ui12 => format2RI12 0b0000001110#10 ui12 rj rd
  | .lu12iw rd si20 => format1RI20 0b0001010#7 si20 rd
  | .andn rd rj rk => format3R 0b00000000000101101#17 rk rj rd
  | .or rd rj rk => format3R 0b00000000000101010#17 rk rj rd
  | .ldw rd rj si12 => format2RI12 0b0010100010#10 si12 rj rd
  | .stw rd rj si12 => format2RI12 0b0010100110#10 si12 rj rd
  | .syscall code => formatCode15 0b00000000001010110#17 code
  | .brk code => formatCode15 0b00000000001010100#17 code

/-- The bytes of an instruction in memory order (R80). -/
def encodeBytes (i : Instr) : List Byte := wordBytes (encode i)

/-- R88, R129: the expansion of the pseudo-instruction `li rd, imm`. -/
def expandLi (rd : Reg) (imm : Word) : List Instr :=
  if imm.toNat ≤ 0xFFF then [.ori rd 0#5 (field imm 0 12)]
  else if field imm 0 12 = 0#12 then [.lu12iw rd (field imm 12 20)]
  else [.lu12iw rd (field imm 12 20), .ori rd rd (field imm 0 12)]

end Sys2Proof
end

