-- ==== Sys2Proof/Config.lean ====
section
/-! DEFINITION. What an implementation fixes (spec/00_scope.md R5) and the values the spec leaves open
(R7 `draw`): the free input of a step and the free value TVAL reads as. -/

namespace Sys2Proof

/-- The nine external interrupt inputs of the core, active high (R41). -/
structure Lines where
  hwi : BitVec 8
  ipi : Bool
deriving DecidableEq, Repr, Inhabited

/-- What the other agents of R9 contribute to one core step: the level the environment drives on the lines
(R41, D15), how many ticks the timer made since the last core step (R170, D14), and whether the core accepts
a pending enabled interrupt at this boundary (R147, D6). -/
structure StepInput where
  lines  : Lines
  ticks  : Nat
  accept : Bool
deriving DecidableEq, Repr, Inhabited

namespace Config

/-- `RESET_PC` (R5, R48). -/
def resetPc : Word := 0x1C000000#32

/-- `NUM_DMW`, the count of direct-mapped window registers: default 2, open (R5, R29, D21). -/
def numDmw : Nat := 2

/-- `TIMER_BITS`, the width of the countdown timer: default 32, open (R5, R25, D14). Any value from 2 to 32
gives a timer of that width. -/
def timerBits : Nat := 32

/-- `PLV_LEGAL` (R5, R167, D8): the privilege levels the hardware implements. -/
def plvLegal : List (BitVec 2) := [0#2, 3#2]

/-- `HW_RESET_TLB_CACHE` (R5, R203): left to the implementation. It has no effect in the model, which has
neither TLB nor cache, so nothing reads it. -/
opaque hwResetTlbCache : Bool

/-- FREE VALUE. The input of core step number `n` once `State.schedule` is used up (R147, R170, R41): nothing
constrains it. Log entry 3. -/
opaque freeInput : Nat → StepInput

/-- FREE VALUE. What CSR.TVAL reads as while the timer is stopped (R170, ID10 "any value"): nothing constrains
it. Log entry 5. -/
opaque freeTval : Nat → Word

end Config

/-- An input in which nothing happens: the lines keep the given level, the timer makes no tick, and the core
declines to take an interrupt at this boundary. -/
def StepInput.quiet (lines : Lines) : StepInput := { lines := lines, ticks := 0, accept := false }

end Sys2Proof
end

