-- ==== Sys2Proof/Machine/State.lean ====
section
/-! DEFINITION. The state of the machine (spec/10_state.md, listed in INVENTORY.md), its reset value (R48, R200)
and the reasons a step can stop. A CSR is held as its fields, since R100 assembles the word a CSR instruction
reads from them; reserved bits are then 0 by construction (R15). -/

namespace Sys2Proof.Machine

/-- CSR.CRMD (R16). -/
structure Crmd where
  plv  : BitVec 2
  ie   : Bool
  da   : Bool
  pg   : Bool
  datf : BitVec 2
  datm : BitVec 2
deriving DecidableEq, Repr

/-- CSR.PRMD (R17). -/
structure Prmd where
  pplv : BitVec 2
  pie  : Bool
deriving DecidableEq, Repr

/-- CSR.EUEN (R18). -/
structure Euen where
  fpuen : Bool
deriving DecidableEq, Repr

/-- CSR.ECFG (R19): the local interrupt enables LIE[9:0] and LIE[12:11]; bit 10 is reserved. -/
structure Ecfg where
  lieLow  : BitVec 10
  lieHigh : BitVec 2
deriving DecidableEq, Repr

/-- The stored part of CSR.ESTAT (R20): IS[1:0], Ecode and EsubCode. IS[9:2] and IS[12] are the sampled lines and
IS[11] is the timer latch, held where R40 and R41 put them. -/
structure Estat where
  swi      : BitVec 2
  ecode    : BitVec 6
  esubcode : BitVec 9
deriving DecidableEq, Repr

/-- The constant-frequency timer: CSR.TCFG (R25), the counter behind CSR.TVAL (R26), the latch behind ESTAT.IS[11]
and the running flag (R40). -/
structure Timer where
  en       : Bool
  periodic : Bool
  initVal  : BitVec 30
  val      : Word
  int      : Bool
  running  : Bool
deriving DecidableEq, Repr

/-- CSR.LLBCTL (R28): KLO, and the LL bit behind ROLLB (R42). -/
structure Llbctl where
  klo   : Bool
  llbit : Bool
deriving DecidableEq, Repr

/-- A direct-mapped window register CSR.DMW`i` (R29). -/
structure Dmw where
  plv0 : Bool
  plv3 : Bool
  mat  : BitVec 2
  pseg : BitVec 3
  vseg : BitVec 3
deriving DecidableEq, Repr

/-- What a region of `MemMap` is (R64, R65, D16). -/
inductive RegionKind where
  | ram
  | rom
  | device
deriving DecidableEq, Repr

/-- A region of `MemMap` (R5, R67): `size` bytes from physical address `base`. -/
structure Region where
  base : Nat
  size : Nat
  kind : RegionKind
deriving DecidableEq, Repr

/-- Memory (R44): address and byte pairs, addresses strictly rising. An address that is not listed has no value
(D16, ID21). -/
abbrev Memory := List Host.Cell

/-- All state of the core, the memory and the agents of R9. -/
structure State where
  /-- General registers `r1` to `r31`; `r0` has no storage (R10). -/
  gpr       : Vector Word 31
  /-- Program counter (R11). -/
  pc        : Word
  crmd      : Crmd
  prmd      : Prmd
  euen      : Euen
  ecfg      : Ecfg
  estat     : Estat
  /-- CSR.ERA (R21). -/
  era       : Word
  /-- CSR.BADV (R22). -/
  badv      : Word
  /-- CSR.EENTRY, field VA, bits 31:6 (R23). -/
  eentry    : BitVec 26
  timer     : Timer
  llbctl    : Llbctl
  /-- CSR.TLBRENTRY, field PA, bits 31:6 (R24). -/
  tlbrentry : BitVec 26
  dmw       : Vector Dmw Config.numDmw
  /-- SAVE0 to SAVE3, the addition R31 allows. -/
  save      : Vector Word 4
  /-- The external interrupt lines as last sampled (R41). -/
  lines     : Lines
  /-- `MemMap`, fixed by the launch (R5, R67). -/
  memMap    : List Region
  mem       : Memory
  /-- Word addresses a store has written, strictly rising: R71 refuses a later fetch of one. -/
  stored    : List Nat
  /-- The model's own: the inputs of the coming core steps, next first (R7 `draw`). -/
  schedule  : List StepInput
  /-- The model's own: how many core steps were made, the argument of the free values of Config. -/
  draws     : Nat
deriving DecidableEq, Repr

/-- What an access to memory is for. -/
inductive AccessKind where
  | fetch
  | load
  | store
deriving DecidableEq, Repr

/-- The model is stuck: no next state. All are safe (the spec gives no effect to any of them). -/
inductive Fault where
  /-- Raised by fetch, LD.W and ST.W at an address where `MemMap` holds nothing (R63, R64, D16: `stuck`). Safe. -/
  | unmappedAddress (kind : AccessKind) (addr : Word)
  /-- Raised by ST.W to a region `MemMap` marks read-only (R64, D16: `stuck`). Safe. -/
  | readOnlyStore (addr : Word)
  /-- Raised by fetch and LD.W at a byte that neither the launch nor a store gave a value (D16, ID21). Safe. -/
  | uninitialisedByte (kind : AccessKind) (addr : Word)
deriving DecidableEq, Repr

/-- The model gives no meaning (R7 `refuse`). All are safe (a refusal is no next state). -/
inductive Refusal where
  /-- Raised by a refused arm of exec: the instruction of that mnemonic has no meaning yet. Safe. -/
  | notModelled (mnemonic : String)
  /-- Raised by step: the word matches no row of the opcode table and no BaseExec is supplied (R9, R85, D11). Safe. -/
  | baseInstruction (word : Word)
  /-- Raised by CSRRD, CSRWR and CSRXCHG: the number is in neither R14 nor the addition of R31 (R100, R101, D12). Safe. -/
  | undefinedCsr (number : CsrNumber)
  /-- Raised by a CSR write to CRMD and by ERTN: CRMD.PLV would be 1 or 2 (R101, R110, R167, D8). Safe. -/
  | illegalPrivilegeLevel (plv : BitVec 2)
  /-- Raised by a CSR write to CRMD that leaves (DA, PG) other than (1, 0) (R66, R101, D9). Safe. -/
  | translationModeWrite (da pg : Bool)
  /-- Raised by fetch, LD.W and ST.W while (DA, PG) is not (1, 0): mapped translation is in no source (R66). Safe. -/
  | mappedAccess (kind : AccessKind) (addr : Word)
  /-- Raised by a CSR write to CRMD or DMW that makes a memory access type 2 or 3 (R68, R101). Safe. -/
  | reservedAccessType (mat : BitVec 2)
  /-- Raised by a write of TCFG with En = 1 and InitVal = 0 (R171, ID11). Safe. -/
  | zeroTimerStart
  /-- Raised by fetch, LD.W and ST.W in a region `MemMap` marks as a device (R64, R65, D16). Safe. -/
  | deviceAccess (kind : AccessKind) (addr : Word)
  /-- Raised by fetch at a word a store has written (R71, D19). Safe. -/
  | fetchOfStoredWord (addr : Word)
deriving DecidableEq, Repr

/-- The launch map of `State.reset`: all of the 32-bit address space is RAM. DESIGN CHOICE, log entry 6. -/
def MemMap.allRam : List Region := [{ base := 0, size := 2 ^ 32, kind := .ram }]

/-- The machine right after reset release (R48, R200, R201). The spec gives pc, CRMD, EUEN, ECFG, ESTAT.IS[1:0],
TCFG.En, LLBCTL.KLO and DMW PLV0 and PLV3; the zeros of all other registers, and a timer that is not stopped, are a
DESIGN CHOICE, log entry 1. -/
def State.reset : State where
  gpr       := Vector.replicate 31 0#32
  pc        := Config.resetPc
  crmd      := { plv := 0#2, ie := false, da := true, pg := false, datf := 0#2, datm := 0#2 }
  prmd      := { pplv := 0#2, pie := false }
  euen      := { fpuen := false }
  ecfg      := { lieLow := 0#10, lieHigh := 0#2 }
  estat     := { swi := 0#2, ecode := 0#6, esubcode := 0#9 }
  era       := 0#32
  badv      := 0#32
  eentry    := 0#26
  timer     := { en := false, periodic := false, initVal := 0#30, val := 0#32, int := false, running := true }
  llbctl    := { klo := false, llbit := false }
  tlbrentry := 0#26
  dmw       := Vector.replicate Config.numDmw { plv0 := false, plv3 := false, mat := 0#2, pseg := 0#3, vseg := 0#3 }
  save      := Vector.replicate 4 0#32
  lines     := { hwi := 0#8, ipi := false }
  memMap    := MemMap.allRam
  mem       := []
  stored    := []
  schedule  := []
  draws     := 0

end Sys2Proof.Machine
end

