-- ==== Sys2Proof/Machine/Memory.lean ====
section
/-! DEFINITION. Memory as data: one byte, little-endian groups of bytes (spec/20_memory.md R60, R61; spec/10_state.md
R44), the map of regions (spec/00_scope.md R5, D16) and the set of words stores have written (R71). -/

namespace Sys2Proof.Machine

/-- The byte at an address; none where nothing gave it a value (D16). -/
def Memory.read : Memory → Nat → Option Byte
  | [], _ => none
  | (x, c) :: m, a => if a = x then some c else Memory.read m a

/-- Memory with one byte written, in the canonical form. -/
def Memory.write : Memory → Nat → Byte → Memory
  | [], a, b => [(a, b)]
  | (x, c) :: m, a, b =>
    if a < x then (a, b) :: (x, c) :: m
    else if a = x then (a, b) :: m
    else (x, c) :: Memory.write m a b

/-- The canonical form: addresses strictly rising, all below 2^32 (R44). -/
abbrev Memory.wf (m : Memory) : Prop :=
  (m.map Prod.fst).Pairwise (· < ·) ∧ ∀ a ∈ m.map Prod.fst, a < 2 ^ 32

/-- `n` bytes from address `a`, the lowest address in the low bits (R61); none if one of them has no value. -/
def Memory.readLE (m : Memory) (a : Nat) : (n : Nat) → Option (BitVec (8 * n))
  | 0 => some 0#0
  | n + 1 =>
    match Memory.read m a, Memory.readLE m (a + 1) n with
    | some b, some hi => some (hi ++ b)
    | _, _ => none

/-- `n` bytes written from address `a`, the low bits at the lowest address (R61). -/
def Memory.writeLE (m : Memory) (a : Nat) : (n : Nat) → BitVec (8 * n) → Memory
  | 0, _ => m
  | n + 1, v => Memory.writeLE (Memory.write m a (v.setWidth 8)) (a + 1) n ((v >>> 8).setWidth (8 * n))

/-- What `MemMap` holds at a physical address: the first region that contains it (R5, R67). -/
def regionAt : List Region → Nat → Option RegionKind
  | [], _ => none
  | r :: rest, a => if r.base ≤ a ∧ a < r.base + r.size then some r.kind else regionAt rest a

/-- What `MemMap` holds at each of `n` bytes. -/
def regionsAt (map : List Region) (a : Nat) : Nat → List (Option RegionKind)
  | 0 => []
  | n + 1 => regionAt map a :: regionsAt map (a + 1) n

/-- A strictly rising list with one more element. -/
def insertRising : List Nat → Nat → List Nat
  | [], a => [a]
  | x :: l, a => if a < x then a :: x :: l else if a = x then x :: l else x :: insertRising l a

/-- The address of the word that contains a byte. -/
def wordAddr (a : Nat) : Nat := a / 4 * 4

end Sys2Proof.Machine
end

