-- ==== Sys2Proof/Machine/Ops.lean ====
section
/-! DEFINITION. The named operations over registers, memory and exceptions that every meaning is written with. -/

namespace Sys2Proof.Machine

/-- The exceptions of R141, by their acronyms. -/
inductive Exception where
  | int | pil | pis | pif | pme | ppi | adef | adem | ale | sys | brk | ine | ipe | fpd | fpe | tlbr
deriving DecidableEq, Repr

/-- ESTAT.Ecode of an exception (R141). -/
def Exception.ecode : Exception → BitVec 6
  | .int => 0x0#6
  | .pil => 0x1#6
  | .pis => 0x2#6
  | .pif => 0x3#6
  | .pme => 0x4#6
  | .ppi => 0x7#6
  | .adef => 0x8#6
  | .adem => 0x8#6
  | .ale => 0x9#6
  | .sys => 0xB#6
  | .brk => 0xC#6
  | .ine => 0xD#6
  | .ipe => 0xE#6
  | .fpd => 0xF#6
  | .fpe => 0x12#6
  | .tlbr => 0x3F#6

/-- ESTAT.EsubCode of an exception: 1 for ADEM, 0 for all others (R141). -/
def Exception.esubcode : Exception → BitVec 9
  | .adem => 1#9
  | .int | .pil | .pis | .pif | .pme | .ppi | .adef | .ale | .sys | .brk | .ine | .ipe | .fpd | .fpe | .tlbr => 0#9

/-- Whether an exception records a virtual address in BADV (R142). -/
def Exception.recordsBadv : Exception → Bool
  | .tlbr | .adef | .adem | .ale | .pil | .pis | .pif | .pme | .ppi => true
  | .int | .sys | .brk | .ine | .ipe | .fpd | .fpe => false

/-- Where in the handling of an instruction an event is detected (R141, R151). -/
inductive Stage where
  | marked | fetch | decode | execute
deriving DecidableEq, Repr

/-- The rank of an event detected at a stage, 1 the highest (R151); none where R151 gives no place: ADEM (NS27),
FPE, and an exception that does not belong to the stage. -/
def Exception.rank : Stage → Exception → Option Nat
  | .marked, .int => some 1
  | .fetch, .adef => some 2
  | .fetch, .tlbr | .fetch, .pif | .fetch, .ppi => some 3
  | .decode, .sys | .decode, .brk | .decode, .ine | .decode, .ipe | .decode, .fpd => some 4
  | .execute, .ale => some 5
  | .execute, .tlbr | .execute, .pil | .execute, .pis | .execute, .pme | .execute, .ppi => some 6
  | _, _ => none

/-- How a part of an instruction ends: with a value, with `raise E(badv)` (R7), stuck, or refused. -/
inductive Result (α : Type) where
  | ok (a : α)
  | raise (e : Exception) (badv : Word)
  | fault (f : Fault)
  | refused (r : Refusal)
deriving DecidableEq, Repr

/-- Go on with the value; every other end stays as it is. -/
def Result.andThen {α β : Type} (r : Result α) (k : α → Result β) : Result β :=
  match r with
  | .ok a => k a
  | .raise e badv => .raise e badv
  | .fault f => .fault f
  | .refused r => .refused r

/-- `x[i]`: `r0` reads 0 (R7, R10). -/
def State.readReg (s : State) (r : Reg) : Word :=
  if r = 0#5 then 0#32 else s.gpr[r.toNat - 1]'(by have := r.isLt; omega)

/-- `x[i] <- v`: a write to `r0` is discarded (R7, R10). -/
def State.writeReg (s : State) (r : Reg) (v : Word) : State :=
  if r = 0#5 then s else { s with gpr := s.gpr.set (r.toNat - 1) v (by have := r.isLt; omega) }

/-- `pc <- t` (R7). -/
def State.setPc (s : State) (t : Word) : State := { s with pc := t }

/-- `pc <- pc + 4` modulo 2^32 (R11, D22). -/
def State.advance (s : State) : State := s.setPc (s.pc + 4#32)

/-- The address CSR.EENTRY holds: bits 5:0 are 0 (R23). -/
def State.eentryAddr (s : State) : Word := place s.eentry 6

/-- The address CSR.TLBRENTRY holds: bits 5:0 are 0 (R24). -/
def State.tlbrentryAddr (s : State) : Word := place s.tlbrentry 6

/-- The entry address of an exception (R161): TLBRENTRY for the TLB refill exception, EENTRY for all others. -/
def State.entry (s : State) (e : Exception) : Word :=
  if e = .tlbr then s.tlbrentryAddr else s.eentryAddr

/-- CRMD after exception entry (R160): PLV and IE are 0; the TLB refill exception also switches to direct address
translation mode (R162). -/
def enteredCrmd (e : Exception) (c : Crmd) : Crmd :=
  { c with plv := 0#2, ie := false, da := c.da || e == .tlbr, pg := c.pg && !(e == .tlbr) }

/-- `Trap(ecode, esub, epc, badv)` (R160), TAKING AN EXCEPTION: the one operation every exception and interrupt goes
through. BADV changes only for an exception that records an address (R142). -/
def State.trap (s : State) (e : Exception) (epc : Word) (badv : Word) : State :=
  { s with
    prmd := { pplv := s.crmd.plv, pie := s.crmd.ie }
    crmd := enteredCrmd e s.crmd
    era := epc
    estat := { s.estat with ecode := e.ecode, esubcode := e.esubcode }
    badv := if e.recordsBadv then badv else s.badv
    pc := s.entry e }

/-- The core takes the interrupt exception in place of the instruction at the pc (R147, R149, R150). -/
def State.interrupt (s : State) : State := s.trap .int s.pc 0#32

/-- The LL-bit step of ERTN (R111). -/
def returnLlbctl (l : Llbctl) : Llbctl :=
  if l.klo then { l with klo := false } else { l with llbit := false }

/-- CRMD after ERTN (R110): PLV and IE come from PRMD; if the last exception was a TLB refill, ERTN also goes back to
mapped address translation mode (corner case 6). -/
def returnedCrmd (s : State) : Crmd :=
  let fromRefill := s.estat.ecode == 0x3F#6
  { s.crmd with
    plv := s.prmd.pplv
    ie := s.prmd.pie
    da := s.crmd.da && !fromRefill
    pg := s.crmd.pg || fromRefill }

/-- The levels the hardware implements (R167). -/
def plvLegal (p : BitVec 2) : Bool := Config.plvLegal.contains p

/-- THE RETURN FROM AN EXCEPTION (R110): refused if PRMD.PPLV is 1 or 2 (corner case 2). -/
def State.exceptionReturn (s : State) : Result State :=
  if plvLegal s.prmd.pplv then
    .ok { s with crmd := returnedCrmd s, llbctl := returnLlbctl s.llbctl, pc := s.era }
  else .refused (.illegalPrivilegeLevel s.prmd.pplv)

/-- `raise E(badv)` in an instruction at `s`: its effects are discarded and the exception is taken at its pc (R150). -/
def State.raise (s : State) (e : Exception) (badv : Word) : Host.Outcome State Fault Refusal :=
  .next (s.trap e s.pc badv)

/-- The end of an instruction that began in `s`. -/
def Result.finish {α : Type} (r : Result α) (s : State) (k : α → Host.Outcome State Fault Refusal) :
    Host.Outcome State Fault Refusal :=
  match r with
  | .ok a => k a
  | .raise e badv => s.raise e badv
  | .fault f => .fault f
  | .refused r => .refused r

/-- The privilege check (R105, R110): outside PLV0 the instruction does nothing but raise IPE. -/
def State.privileged (s : State) (k : Host.Outcome State Fault Refusal) : Host.Outcome State Fault Refusal :=
  if s.crmd.plv = 0#2 then k else s.raise .ipe 0#32

/-- `BaseExec` (R9, R85, D11), the meaning of a word that no row of the opcode table matches: its default is refusal. It
never raises INE. -/
def baseExec (w : Word) (_s : State) : Host.Outcome State Fault Refusal := .refused (.baseInstruction w)

/-- The exception a misaligned address raises: ADEF on a fetch (R63), ALE on a load or store (R64). -/
def misaligned : AccessKind → Exception
  | .fetch => .adef
  | .load => .ale
  | .store => .ale

/-- Check 1 of R64, and the alignment rule of R63: an access of `n` bytes is at a multiple of `n`. -/
def checkAlign (kind : AccessKind) (addr : Word) (n : Nat) : Result Unit :=
  if addr.toNat % n = 0 then .ok () else .raise (misaligned kind) addr

/-- Address translation (R62): in direct mode the physical address is the virtual address; any other mode has no meaning
(R66). -/
def State.translate (s : State) (kind : AccessKind) (addr : Word) : Result Nat :=
  if s.crmd.da && !s.crmd.pg then .ok addr.toNat else .refused (.mappedAccess kind addr)

/-- What `MemMap` says of an access of `n` bytes (R63, R64, R65, D16). -/
def State.checkMap (s : State) (kind : AccessKind) (addr : Word) (pa n : Nat) : Result Unit :=
  let regions := regionsAt s.memMap pa n
  if regions.contains none then .fault (.unmappedAddress kind addr)
  else if regions.contains (some .device) then .refused (.deviceAccess kind addr)
  else if kind == .store && regions.contains (some .rom) then .fault (.readOnlyStore addr)
  else .ok ()

/-- `MemRead(addr, n)` (R64) and the reading of `Fetch` (R63): the checks in their order, then the bytes. -/
def State.memRead (s : State) (kind : AccessKind) (addr : Word) (n : Nat) : Result (BitVec (8 * n)) :=
  (checkAlign kind addr n).andThen fun _ =>
  (s.translate kind addr).andThen fun pa =>
  (s.checkMap kind addr pa n).andThen fun _ =>
  match Memory.readLE s.mem pa n with
  | some v => .ok v
  | none => .fault (.uninitialisedByte kind addr)

/-- `MemWrite(addr, n, v)` (R64): the checks in their order, then the bytes. -/
def State.memWrite (s : State) (addr : Word) (n : Nat) (v : BitVec (8 * n)) : Result State :=
  (checkAlign .store addr n).andThen fun _ =>
  (s.translate .store addr).andThen fun pa =>
  (s.checkMap .store addr pa n).andThen fun _ =>
  .ok { s with mem := Memory.writeLE s.mem pa n v, stored := insertRising s.stored (wordAddr pa) }

/-- `Fetch(pc)` (R63): the instruction word at pc. A word that a store has written is refused (R71, D19). -/
def State.fetch (s : State) : Result Word :=
  (s.memRead .fetch s.pc 4).andThen fun w =>
  if s.stored.contains s.pc.toNat then .refused (.fetchOfStoredWord s.pc) else .ok w

end Sys2Proof.Machine
end

