-- ==== Sys2Proof/Machine/Operands.lean ====
section
/-! DEFINITION. The operand forms (spec/30_encoding.md R83): every immediate and the address of a load or store. A
register operand is `State.readReg`. The CSR number is used as it is; the code of SYSCALL and BREAK is not used. -/

namespace Sys2Proof.Machine

/-- ORI: `zext_12(ui12)` (R83). -/
def immUi12 (ui12 : BitVec 12) : Word := ui12.setWidth 32

/-- LD.W and ST.W: `sext_12(si12)`, a byte offset that is not scaled (R83). -/
def immSi12 (si12 : BitVec 12) : Word := si12.signExtend 32

/-- LU12I.W: `si20 :: 0x000` (R83, R122). -/
def immSi20 (si20 : BitVec 20) : Word := place si20 12

/-- The address of LD.W and ST.W: `x[rj] + sext_12(si12)` modulo 2^32 (R125, R126, R130). -/
def State.effectiveAddr (s : State) (rj : Reg) (si12 : BitVec 12) : Word := s.readReg rj + immSi12 si12

/-- The mask merge of CSRXCHG (R104): the bits where `mask` is 1 come from `v`, the others from `old`. -/
def maskMerge (old v mask : Word) : Word := (old &&& ~~~mask) ||| (v &&& mask)

end Sys2Proof.Machine
end

