-- ==== Sys2Proof/Machine/Csr.lean ====
section
/-! DEFINITION. The CSR space (spec/10_state.md R13 to R31) and its two access primitives CsrRead and CsrWrite
(spec/40_csr_access.md R100, R101). -/

namespace Sys2Proof.Machine

/-- The CSRs of R14, and SAVE0 to SAVE3, which R31 lets a modeller add. -/
inductive Csr where
  | crmd | prmd | euen | ecfg | estat | era | badv | eentry | tcfg | tval | ticlr | llbctl | tlbrentry
  | dmw (i : Fin Config.numDmw)
  | save (i : Fin 4)
deriving DecidableEq, Repr

/-- The number of a CSR (R14, R31). -/
def Csr.number : Csr → CsrNumber
  | .crmd => 0x0#14
  | .prmd => 0x1#14
  | .euen => 0x2#14
  | .ecfg => 0x4#14
  | .estat => 0x5#14
  | .era => 0x6#14
  | .badv => 0x7#14
  | .eentry => 0xC#14
  | .tcfg => 0x41#14
  | .tval => 0x42#14
  | .ticlr => 0x44#14
  | .llbctl => 0x60#14
  | .tlbrentry => 0x88#14
  | .dmw i => BitVec.ofNat 14 (0x180 + i.val)
  | .save i => BitVec.ofNat 14 (0x30 + i.val)

/-- The CSR a number names; none for a number outside R14 and the addition of R31 (R100). -/
def Csr.ofNumber (n : CsrNumber) : Option Csr :=
  if n = 0x0#14 then some .crmd
  else if n = 0x1#14 then some .prmd
  else if n = 0x2#14 then some .euen
  else if n = 0x4#14 then some .ecfg
  else if n = 0x5#14 then some .estat
  else if n = 0x6#14 then some .era
  else if n = 0x7#14 then some .badv
  else if n = 0xC#14 then some .eentry
  else if n = 0x41#14 then some .tcfg
  else if n = 0x42#14 then some .tval
  else if n = 0x44#14 then some .ticlr
  else if n = 0x60#14 then some .llbctl
  else if n = 0x88#14 then some .tlbrentry
  else if h : 0x180 ≤ n.toNat ∧ n.toNat < 0x180 + Config.numDmw then some (.dmw ⟨n.toNat - 0x180, by omega⟩)
  else if h : 0x30 ≤ n.toNat ∧ n.toNat < 0x34 then some (.save ⟨n.toNat - 0x30, by omega⟩)
  else none

/-- The bits of TCFG and TVAL that a timer of `TIMER_BITS` bits has: `2^n - 1` (R25, R26). -/
def timerMask : Word := BitVec.ofNat 32 (2 ^ Config.timerBits - 1)

/-- The write mask of a CSR: its RW bits (R15, and WMASK in R16 to R29; R31 for SAVE). -/
def Csr.wmask : Csr → Word
  | .crmd => 0x000001FF#32
  | .prmd => 0x00000007#32
  | .euen => 0x00000001#32
  | .ecfg => 0x00001BFF#32
  | .estat => 0x00000003#32
  | .era => 0xFFFFFFFF#32
  | .badv => 0xFFFFFFFF#32
  | .eentry => 0xFFFFFFC0#32
  | .tcfg => timerMask
  | .tval => 0#32
  | .ticlr => 0#32
  | .llbctl => 0x00000004#32
  | .tlbrentry => 0xFFFFFFC0#32
  | .dmw _ => 0xEE000039#32
  | .save _ => 0xFFFFFFFF#32

/-- The word of CRMD (R16). -/
def Crmd.toWord (c : Crmd) : Word :=
  place c.plv 0 ||| placeBit c.ie 2 ||| placeBit c.da 3 ||| placeBit c.pg 4 ||| place c.datf 5 ||| place c.datm 7

/-- The fields of CRMD a written word carries (R16). -/
def Crmd.ofWord (v : Word) : Crmd :=
  { plv := field v 0 2, ie := bit v 2, da := bit v 3, pg := bit v 4, datf := field v 5 2, datm := field v 7 2 }

/-- The word of PRMD (R17). -/
def Prmd.toWord (p : Prmd) : Word := place p.pplv 0 ||| placeBit p.pie 2

/-- The fields of PRMD a written word carries (R17). -/
def Prmd.ofWord (v : Word) : Prmd := { pplv := field v 0 2, pie := bit v 2 }

/-- The word of ECFG (R19): bit 10 reads 0. -/
def Ecfg.toWord (e : Ecfg) : Word := place e.lieLow 0 ||| place e.lieHigh 11

/-- The fields of ECFG a written word carries (R19): bit 10 is ignored (D24). -/
def Ecfg.ofWord (v : Word) : Ecfg := { lieLow := field v 0 10, lieHigh := field v 11 2 }

/-- The word of ESTAT (R20): IS[1:0], the sampled lines, the timer latch, Ecode and EsubCode; bit 10 reads 0 (D5). -/
def estatWord (e : Estat) (l : Lines) (timerInt : Bool) : Word :=
  place e.swi 0 ||| place l.hwi 2 ||| placeBit timerInt 11 ||| placeBit l.ipi 12 ||| place e.ecode 16
    ||| place e.esubcode 22

/-- The value InitVal stands for: two 0 bits are appended (R25). -/
def initCount (initVal : BitVec 30) : Word := place initVal 2

/-- The word of TCFG (R25). -/
def Timer.tcfgWord (t : Timer) : Word := placeBit t.en 0 ||| placeBit t.periodic 1 ||| place t.initVal 2

/-- What a write of TCFG stores, and the counter it loads and starts (R101, R171). Bits above `TIMER_BITS` do not
exist (R25). -/
def Timer.writeTcfg (t : Timer) (v : Word) : Timer :=
  let w := v &&& timerMask
  { t with
    en := bit w 0
    periodic := bit w 1
    initVal := field w 2 30
    val := initCount (field w 2 30)
    running := true }

/-- The word of LLBCTL (R28): ROLLB shows the LL bit, WCLLB reads 0. -/
def Llbctl.toWord (l : Llbctl) : Word := placeBit l.llbit 0 ||| placeBit l.klo 2

/-- A write of LLBCTL (R28, R101): KLO is stored, and writing 1 to WCLLB clears the LL bit. -/
def Llbctl.write (l : Llbctl) (v : Word) : Llbctl := { klo := bit v 2, llbit := l.llbit && !bit v 1 }

/-- The word of a DMW (R29). -/
def Dmw.toWord (d : Dmw) : Word :=
  placeBit d.plv0 0 ||| placeBit d.plv3 3 ||| place d.mat 4 ||| place d.pseg 25 ||| place d.vseg 29

/-- The fields of a DMW a written word carries (R29). -/
def Dmw.ofWord (v : Word) : Dmw :=
  { plv0 := bit v 0, plv3 := bit v 3, mat := field v 4 2, pseg := field v 25 3, vseg := field v 29 3 }

/-- What TVAL reads as (R26): the counter; once a one-shot countdown has stopped, any value (R170, ID10). -/
def State.tvalWord (s : State) : Word :=
  if s.timer.running then s.timer.val else Config.freeTval s.draws &&& timerMask

/-- `CsrRead(n)` (R100). -/
def csrRead (c : Csr) (s : State) : Word :=
  match c with
  | .crmd => s.crmd.toWord
  | .prmd => s.prmd.toWord
  | .euen => placeBit s.euen.fpuen 0
  | .ecfg => s.ecfg.toWord
  | .estat => estatWord s.estat s.lines s.timer.int
  | .era => s.era
  | .badv => s.badv
  | .eentry => s.eentryAddr
  | .tcfg => s.timer.tcfgWord
  | .tval => s.tvalWord
  | .ticlr => 0#32
  | .llbctl => s.llbctl.toWord
  | .tlbrentry => s.tlbrentryAddr
  | .dmw i => (s.dmw[i]).toWord
  | .save i => s.save[i]

/-- Memory access types 2 and 3 are reserved (R68). -/
def accessTypeOk (mat : BitVec 2) : Bool := decide (mat.toNat < 2)

/-- A write of CRMD with the checks of R101. -/
def writeCrmd (c : Crmd) (s : State) : Result State :=
  if !plvLegal c.plv then .refused (.illegalPrivilegeLevel c.plv)
  else if !(c.da && !c.pg) then .refused (.translationModeWrite c.da c.pg)
  else if !accessTypeOk c.datf then .refused (.reservedAccessType c.datf)
  else if !accessTypeOk c.datm then .refused (.reservedAccessType c.datm)
  else .ok { s with crmd := c }

/-- A write of TCFG: En = 1 with InitVal = 0 has no defined outcome (R171, ID11). -/
def writeTimer (t : Timer) (s : State) : Result State :=
  if t.en && t.initVal == 0#30 then .refused .zeroTimerStart else .ok { s with timer := t }

/-- A write of a DMW with the check of R101. -/
def writeDmw (i : Fin Config.numDmw) (d : Dmw) (s : State) : Result State :=
  if accessTypeOk d.mat then .ok { s with dmw := s.dmw.set i d } else .refused (.reservedAccessType d.mat)

/-- `CsrWrite(n, v)` (R101): only the RW bits change, then the side effects of its table. A write of PRMD stores any PPLV:
"PRMD.PPLV may hold any 2-bit value; only its use by ERTN is checked" (D8, log entry 9). -/
def csrWrite (c : Csr) (v : Word) (s : State) : Result State :=
  match c with
  | .crmd => writeCrmd (Crmd.ofWord v) s
  | .prmd => .ok { s with prmd := Prmd.ofWord v }
  | .euen => .ok { s with euen := { fpuen := bit v 0 } }
  | .ecfg => .ok { s with ecfg := Ecfg.ofWord v }
  | .estat => .ok { s with estat := { s.estat with swi := field v 0 2 } }
  | .era => .ok { s with era := v }
  | .badv => .ok { s with badv := v }
  | .eentry => .ok { s with eentry := field v 6 26 }
  | .tcfg => writeTimer (s.timer.writeTcfg v) s
  | .tval => .ok s
  | .ticlr => .ok { s with timer := { s.timer with int := s.timer.int && !bit v 0 } }
  | .llbctl => .ok { s with llbctl := s.llbctl.write v }
  | .tlbrentry => .ok { s with tlbrentry := field v 6 26 }
  | .dmw i => writeDmw i (Dmw.ofWord v) s
  | .save i => .ok { s with save := s.save.set i v }

/-- The CSR an instruction names; a number that names none is refused (R100, R101, D12). -/
def csrOf (n : CsrNumber) : Result Csr :=
  match Csr.ofNumber n with
  | some c => .ok c
  | none => .refused (.undefinedCsr n)

end Sys2Proof.Machine
end

