-- ==== Sys2Proof/Machine/Flags.lean ====
section
/-! DEFINITION. The hardware has no status flags and no instruction computes one (spec/10_state.md R12). What it has in
their place is the interrupt state: the interrupt vector, the pending condition and the fixed-priority arbitration
(spec/60_exceptions.md R143 to R148). -/

namespace Sys2Proof.Machine

/-- The twelve line interrupts (R143). -/
inductive Interrupt where
  | swi (k : Fin 2)
  | hwi (k : Fin 8)
  | ti
  | ipi
deriving DecidableEq, Repr

/-- The interrupt number: the index of the interrupt's bit in ESTAT.IS (R143). -/
def Interrupt.number : Interrupt → Nat
  | .swi k => k.val
  | .hwi k => 2 + k.val
  | .ti => 11
  | .ipi => 12

/-- The interrupts from the highest to the lowest priority (R148). -/
def Interrupt.byPriority : List Interrupt :=
  [.ipi, .ti, .hwi 7, .hwi 6, .hwi 5, .hwi 4, .hwi 3, .hwi 2, .hwi 1, .hwi 0, .swi 1, .swi 0]

/-- ESTAT.IS[12:0] (R144). -/
def State.isVec (s : State) : IntVec := field (csrRead .estat s) 0 13

/-- ECFG.LIE[12:0] (R145). -/
def State.lieVec (s : State) : IntVec := field (csrRead .ecfg s) 0 13

/-- `int_vec <- ESTAT.IS & ECFG.LIE` (R146). -/
def State.intVec (s : State) : IntVec := s.isVec &&& s.lieVec

/-- `int_pending <- (CRMD.IE == 1) and (int_vec != 0)` (R146). -/
def State.intPending (s : State) : Bool := s.crmd.ie && s.intVec != 0#13

/-- The interrupt the fixed-priority arbitration selects: the largest interrupt number wins (R148). On this hardware
the choice leaves no trace in the state. -/
def arbitrate (v : IntVec) : Option Interrupt := Interrupt.byPriority.find? fun i => v.getLsbD i.number

end Sys2Proof.Machine
end

