-- ==== Sys2Proof/Machine/Agents.lean ====
section
/-! DEFINITION. The agents beside the core (spec/00_scope.md R9): the timer (spec/60_exceptions.md R170), the environment
that drives the lines (spec/10_state.md R41), and reset, applied by the host (spec/70_reset_and_hazards.md R200). -/

namespace Sys2Proof.Machine

/-- `TimerTick` (R170). A tick is enabled when TCFG.En = 1 and the timer runs; otherwise the timer holds. -/
def Timer.tick (t : Timer) : Timer :=
  if t.en && t.running then
    if t.val != 0#32 then
      { t with val := t.val - 1#32, int := t.int || t.val - 1#32 == 0#32 }
    else if t.periodic then { t with val := initCount t.initVal }
    else { t with running := false }
  else t

/-- Any number of ticks (R170, D14). -/
def Timer.ticks (t : Timer) : Nat → Timer
  | 0 => t
  | n + 1 => (t.tick).ticks n

/-- The input of the coming core step: the head of the schedule, and a free value once the schedule is used up. -/
def State.nextInput (s : State) : StepInput :=
  match s.schedule with
  | inp :: _ => inp
  | [] => Config.freeInput s.draws

/-- What has happened when the core step begins (R150, R170, D14, D15): the timer has made its ticks, the lines have been
sampled, and the input is used up. -/
def State.arrive (s : State) : State :=
  { s with
    lines := s.nextInput.lines
    timer := s.timer.ticks s.nextInput.ticks
    schedule := s.schedule.tail
    draws := s.draws + 1 }

/-- Whether the core takes an interrupt in this step (R147): one is pending and enabled at the boundary, and the core
chooses to accept it. -/
def State.takesInterrupt (s : State) : Bool := s.arrive.intPending && s.nextInput.accept

/-- Reset, applied by the host between two core steps (R9, R200). Memory and its map are not defined by reset (R48); the
registers R202 leaves indeterminate take the values of `State.reset` (log entry 1). -/
def State.applyReset (s : State) : State :=
  { State.reset with
    memMap := s.memMap
    mem := s.mem
    stored := s.stored
    schedule := s.schedule
    draws := s.draws }

end Sys2Proof.Machine
end

