-- ==== Sys2Proof/Machine/CsrAccess.lean ====
section
/-! DEFINITION. CSRRD, CSRWR and CSRXCHG (spec/40_csr_access.md). -/

namespace Sys2Proof.Machine

/-- CSRRD `rd, csr` (R102). -/
def execCsrrd (rd : Reg) (csr : CsrNumber) (s : State) : Host.Outcome State Fault Refusal :=
  s.privileged <| (csrOf csr).finish s fun c => .next ((s.writeReg rd (csrRead c s)).advance)

/-- CSRWR `rd, csr` (R103): the write and the read-back of the old value are one step. -/
def execCsrwr (rd : Reg) (csr : CsrNumber) (s : State) : Host.Outcome State Fault Refusal :=
  s.privileged <| (csrOf csr).finish s fun c =>
    (csrWrite c (s.readReg rd) s).finish s fun t => .next ((t.writeReg rd (csrRead c s)).advance)

/-- What CSRXCHG writes (R104): "`mask = 0` changes nothing and reads the CSR" (log entry 10), any other mask replaces
the bits it covers. -/
def csrExchange (c : Csr) (v mask : Word) (s : State) : Result State :=
  if mask = 0#32 then .ok s else csrWrite c (maskMerge (csrRead c s) v mask) s

/-- CSRXCHG `rd, rj, csr` (R104): `rj` holds the mask, `rd` the new bits and then the old value. -/
def execCsrxchg (rd rj : Reg) (csr : CsrNumber) (s : State) : Host.Outcome State Fault Refusal :=
  s.privileged <| (csrOf csr).finish s fun c =>
    (csrExchange c (s.readReg rd) (s.readReg rj) s).finish s fun t => .next ((t.writeReg rd (csrRead c s)).advance)

end Sys2Proof.Machine
end

