-- ==== Sys2Proof/Machine/Ertn.lean ====
section
/-! DEFINITION. ERTN (spec/41_ertn.md). -/

namespace Sys2Proof.Machine

/-- ERTN (R110, R111). -/
def execErtn (s : State) : Host.Outcome State Fault Refusal :=
  s.privileged <| s.exceptionReturn.finish s fun t => .next t

end Sys2Proof.Machine
end

