-- ==== Sys2Proof/Machine/Support.lean ====
section
/-! DEFINITION. The support subset of the base instruction set (spec/42_support_subset.md): ORI, LU12I.W, ANDN, OR, LD.W,
ST.W, SYSCALL, BREAK. None is privileged and none writes a flag (R120). -/

namespace Sys2Proof.Machine

/-- ORI `rd, rj, ui12` (R121). -/
def execOri (rd rj : Reg) (ui12 : BitVec 12) (s : State) : Host.Outcome State Fault Refusal :=
  .next ((s.writeReg rd (s.readReg rj ||| immUi12 ui12)).advance)

/-- LU12I.W `rd, si20` (R122). -/
def execLu12iw (rd : Reg) (si20 : BitVec 20) (s : State) : Host.Outcome State Fault Refusal :=
  .next ((s.writeReg rd (immSi20 si20)).advance)

/-- ANDN `rd, rj, rk` (R123). -/
def execAndn (rd rj rk : Reg) (s : State) : Host.Outcome State Fault Refusal :=
  .next ((s.writeReg rd (s.readReg rj &&& ~~~s.readReg rk)).advance)

/-- OR `rd, rj, rk` (R124). -/
def execOr (rd rj rk : Reg) (s : State) : Host.Outcome State Fault Refusal :=
  .next ((s.writeReg rd (s.readReg rj ||| s.readReg rk)).advance)

/-- LD.W `rd, rj, si12` (R125). `rd = r0` performs the access and discards the value. -/
def execLdw (rd rj : Reg) (si12 : BitVec 12) (s : State) : Host.Outcome State Fault Refusal :=
  (s.memRead .load (s.effectiveAddr rj si12) 4).finish s fun v => .next ((s.writeReg rd v).advance)

/-- ST.W `rd, rj, si12` (R126). -/
def execStw (rd rj : Reg) (si12 : BitVec 12) (s : State) : Host.Outcome State Fault Refusal :=
  (s.memWrite (s.effectiveAddr rj si12) 4 (s.readReg rd)).finish s fun t => .next t.advance

/-- SYSCALL `code` (R127): always the system-call exception; the hardware ignores the code. -/
def execSyscall (_code : BitVec 15) (s : State) : Host.Outcome State Fault Refusal := s.raise .sys 0#32

/-- BREAK `code` (R128): always the breakpoint exception; the hardware ignores the code. -/
def execBreak (_code : BitVec 15) (s : State) : Host.Outcome State Fault Refusal := s.raise .brk 0#32

end Sys2Proof.Machine
end

