-- ==== Sys2Proof/Machine/Dispatch.lean ====
section
/-! DEFINITION. One arm per instruction, each a call of its meaning. -/

namespace Sys2Proof.Machine

def exec (i : Instr) (s : State) : Host.Outcome State Fault Refusal :=
  match i with
  | .csrrd rd csr => Sys2Proof.Machine.execCsrrd rd csr s
  | .csrwr rd csr => Sys2Proof.Machine.execCsrwr rd csr s
  | .csrxchg rd rj csr => Sys2Proof.Machine.execCsrxchg rd rj csr s
  | .ertn => Sys2Proof.Machine.execErtn s
  | .ori rd rj ui12 => Sys2Proof.Machine.execOri rd rj ui12 s
  | .lu12iw rd si20 => Sys2Proof.Machine.execLu12iw rd si20 s
  | .andn rd rj rk => Sys2Proof.Machine.execAndn rd rj rk s
  | .or rd rj rk => Sys2Proof.Machine.execOr rd rj rk s
  | .ldw rd rj si12 => Sys2Proof.Machine.execLdw rd rj si12 s
  | .stw rd rj si12 => Sys2Proof.Machine.execStw rd rj si12 s
  | .syscall code => Sys2Proof.Machine.execSyscall code s
  | .brk code => Sys2Proof.Machine.execBreak code s

end Sys2Proof.Machine
end

