-- ==== Sys2Proof/Machine/Step.lean ====
section
/-! DEFINITION. One step of the core (spec/60_exceptions.md R150). -/

namespace Sys2Proof.Machine

/-- The core executes the instruction of a fetched word. A word outside the table goes to BaseExec (R9, R85). -/
def execWord (w : Word) (s : State) : Host.Outcome State Fault Refusal :=
  match decodeWord w with
  | .ok i => exec i s
  | .error _ => baseExec w s

/-- `CoreStep` (R150). -/
def step (s : State) : Host.Outcome State Fault Refusal :=
  if s.takesInterrupt then .next s.arrive.interrupt
  else s.arrive.fetch.finish s.arrive fun w => execWord w s.arrive

/-- The state with a word placed where step fetches next, so that the very next step runs it. What the fetch needs beside
the bytes: an aligned pc, direct address translation mode, a region of memory there, a word no store has written, and an
input at which the core takes no interrupt and the timer and the lines stay as they are. -/
def State.withFetchWord (s : State) (nbits w : Nat) : State :=
  let pa := wordAddr s.pc.toNat
  let fetchable := regionsAt s.memMap pa 4 |>.all fun r => r == some .ram || r == some .rom
  { s with
    pc := BitVec.ofNat 32 pa
    crmd := { s.crmd with da := true, pg := false }
    memMap := if fetchable then s.memMap else { base := pa, size := 4, kind := .ram } :: s.memMap
    mem := Memory.writeLE s.mem pa 4 (BitVec.ofNat 32 (w % 2 ^ nbits))
    stored := s.stored.filter (· != pa)
    schedule := StepInput.quiet s.lines :: s.schedule }

end Sys2Proof.Machine
end

