-- ==== Sys2Proof/Safety.lean ====
section
/-! DEFINITION. The terms claims are made in: what stays the same, what taking an exception does (spec/60_exceptions.md
R160), what a CSR write may do (spec/40_csr_access.md R101), the invariant of the model, the events of R151, and the end
of a run (spec/70_reset_and_hazards.md R207). Each is written from the spec's words, not from the operations of Machine. -/

namespace Sys2Proof.Safety

open Sys2Proof.Machine

/-- Every byte of memory reads as before, and no word was recorded as stored. -/
def MemSame (s t : State) : Prop :=
  (∀ a, Memory.read t.mem a = Memory.read s.mem a) ∧ t.stored = s.stored

/-- Every byte outside the four from `a` reads as before, the four hold `v`, lowest address first (R61), and the word is
recorded as stored (R71). -/
def StoredWord (s t : State) (a : Nat) (v : Word) : Prop :=
  (∀ b, b < a ∨ a + 4 ≤ b → Memory.read t.mem b = Memory.read s.mem b) ∧
  (∀ k, k < 4 → Memory.read t.mem (a + k) = some (byteOf v k)) ∧
  (∀ x, x ∈ t.stored ↔ x = a ∨ x ∈ s.stored)

/-- Every general register is unchanged. -/
def RegsSame (s t : State) : Prop := ∀ r, t.readReg r = s.readReg r

/-- `rd` holds `v`, every other register is unchanged; `r0` reads 0 whatever is written to it (R10). -/
def OnlyReg (rd : Reg) (v : Word) (s t : State) : Prop :=
  ∀ r, t.readReg r = if r = rd ∧ rd ≠ 0#5 then v else s.readReg r

/-- The agents beside the core and the launch map are untouched: the lines, `MemMap`, the inputs to come. -/
structure OutsideSame (s t : State) : Prop where
  lines    : t.lines = s.lines
  memMap   : t.memMap = s.memMap
  schedule : t.schedule = s.schedule
  draws    : t.draws = s.draws

/-- Every CSR, the timer and the LL bit are unchanged. -/
structure CsrsSame (s t : State) : Prop where
  crmd      : t.crmd = s.crmd
  prmd      : t.prmd = s.prmd
  euen      : t.euen = s.euen
  ecfg      : t.ecfg = s.ecfg
  estat     : t.estat = s.estat
  era       : t.era = s.era
  badv      : t.badv = s.badv
  eentry    : t.eentry = s.eentry
  timer     : t.timer = s.timer
  llbctl    : t.llbctl = s.llbctl
  tlbrentry : t.tlbrentry = s.tlbrentry
  dmw       : t.dmw = s.dmw
  save      : t.save = s.save

/-- What has happened when a core step begins (R150, R170, D14, D15): the timer has made the ticks of the step's input, the
lines are those of the input, the input is used up. Nothing else changes: no register, no other CSR, no memory. The form of
the input and the order of these events are the model's own (log entries 3, 16). -/
structure Arrived (s t : State) : Prop where
  timer     : t.timer = s.timer.ticks s.nextInput.ticks
  lines     : t.lines = s.nextInput.lines
  schedule  : t.schedule = s.schedule.tail
  draws     : t.draws = s.draws + 1
  memMap    : t.memMap = s.memMap
  memory    : MemSame s t
  regs      : RegsSame s t
  pc        : t.pc = s.pc
  crmd      : t.crmd = s.crmd
  prmd      : t.prmd = s.prmd
  euen      : t.euen = s.euen
  ecfg      : t.ecfg = s.ecfg
  estat     : t.estat = s.estat
  era       : t.era = s.era
  badv      : t.badv = s.badv
  eentry    : t.eentry = s.eentry
  llbctl    : t.llbctl = s.llbctl
  tlbrentry : t.tlbrentry = s.tlbrentry
  dmw       : t.dmw = s.dmw
  save      : t.save = s.save

/-- An instruction that writes `v` to `rd` and nothing else: the pc goes to `pc + 4`. -/
structure WroteOnlyReg (rd : Reg) (v : Word) (s t : State) : Prop where
  reg     : OnlyReg rd v s t
  pc      : t.pc = s.pc + 4#32
  csrs    : CsrsSame s t
  memory  : MemSame s t
  outside : OutsideSame s t

/-- R160: what the hardware does when exception `e` is taken at `epc`. BADV changes only if an address is given (R142).
For the TLB refill exception the entry is TLBRENTRY (R161) and DA becomes 1, PG 0 (R162). Nothing else changes. -/
structure TookException (e : Exception) (epc : Word) (badv : Option Word) (s t : State) : Prop where
  pplv      : t.prmd.pplv = s.crmd.plv
  pie       : t.prmd.pie = s.crmd.ie
  plv       : t.crmd.plv = 0#2
  ie        : t.crmd.ie = false
  era       : t.era = epc
  ecode     : t.estat.ecode = e.ecode
  esubcode  : t.estat.esubcode = e.esubcode
  badv      : t.badv = badv.getD s.badv
  pc        : t.pc = if e = .tlbr then csrRead .tlbrentry s else csrRead .eentry s
  da        : t.crmd.da = if e = .tlbr then true else s.crmd.da
  pg        : t.crmd.pg = if e = .tlbr then false else s.crmd.pg
  datf      : t.crmd.datf = s.crmd.datf
  datm      : t.crmd.datm = s.crmd.datm
  swi       : t.estat.swi = s.estat.swi
  euen      : t.euen = s.euen
  ecfg      : t.ecfg = s.ecfg
  eentry    : t.eentry = s.eentry
  timer     : t.timer = s.timer
  llbctl    : t.llbctl = s.llbctl
  tlbrentry : t.tlbrentry = s.tlbrentry
  dmw       : t.dmw = s.dmw
  save      : t.save = s.save
  regs      : RegsSame s t
  memory    : MemSame s t
  outside   : OutsideSame s t

/-- R101: the writes of the table that are not refused. Any write of PRMD is done (D8, log entry 9). -/
def WriteLegal (c : Csr) (v : Word) : Prop :=
  match c with
  | .crmd => (field v 0 2 = 0#2 ∨ field v 0 2 = 3#2) ∧ bit v 3 = true ∧ bit v 4 = false ∧
      (field v 5 2 = 0#2 ∨ field v 5 2 = 1#2) ∧ (field v 7 2 = 0#2 ∨ field v 7 2 = 1#2)
  | .tcfg => bit (v &&& timerMask) 0 = true → field (v &&& timerMask) 2 30 ≠ 0#30
  | .dmw _ => field v 4 2 = 0#2 ∨ field v 4 2 = 1#2
  | .prmd | .euen | .ecfg | .estat | .era | .badv | .eentry | .tval | .ticlr | .llbctl | .tlbrentry | .save _ => True

/-- R101: what a CSR instruction writing `v` to `c` does to the CSRs. LLBCTL reads the LL bit, which its write can clear,
so its fields are given one by one; TVAL follows the counter a write of TCFG loads, and ESTAT the latch a write of TICLR
clears, while what ESTAT itself stores (IS[1:0], Ecode, EsubCode) changes by no write but its own. -/
structure CsrWritten (c : Csr) (v : Word) (s t : State) : Prop where
  masked   : c ≠ .llbctl → csrRead c t = (csrRead c s &&& ~~~c.wmask) ||| (v &&& c.wmask)
  others   : ∀ d, d ≠ c → ¬(c = .tcfg ∧ d = .tval) → ¬(c = .ticlr ∧ d = .estat) → csrRead d t = csrRead d s
  klo      : t.llbctl.klo = if c = .llbctl then bit v 2 else s.llbctl.klo
  llbit    : t.llbctl.llbit = if c = .llbctl ∧ bit v 1 = true then false else s.llbctl.llbit
  estat    : c ≠ .estat → t.estat = s.estat
  timerInt : t.timer.int = if c = .ticlr ∧ bit v 0 = true then false else s.timer.int
  counter  : t.timer.val = if c = .tcfg then v &&& timerMask &&& ~~~3#32 else s.timer.val
  running  : t.timer.running = if c = .tcfg then true else s.timer.running
  memory   : MemSame s t
  outside  : OutsideSame s t

/-- The four bytes from `a` are memory that can be read: each is in a RAM or ROM region and `v` is what they hold. -/
def ReadableWord (s : State) (a : Nat) (v : Word) : Prop :=
  ∀ k, k < 4 → (regionAt s.memMap (a + k) = some .ram ∨ regionAt s.memMap (a + k) = some .rom) ∧
    Memory.read s.mem (a + k) = some (byteOf v k)

/-- The four bytes from `a` are memory that can be written. -/
def WritableWord (s : State) (a : Nat) : Prop := ∀ k, k < 4 → regionAt s.memMap (a + k) = some .ram

/-- Direct address translation mode (R62). -/
def DirectMode (s : State) : Prop := s.crmd.da = true ∧ s.crmd.pg = false

/-- The fetch of step `s` gives the word `w`: no interrupt is taken, the pc is aligned, and the word is readable and not
written by a store (R63, R71). -/
structure Fetches (s : State) (w : Word) : Prop where
  noInterrupt : s.takesInterrupt = false
  aligned     : s.pc.toNat % 4 = 0
  direct      : DirectMode s
  readable    : ReadableWord s s.pc.toNat w
  notStored   : s.pc.toNat ∉ s.stored

/-- The exception codes that can be recorded in the model: INT, ADEF, ALE, SYS, BRK, IPE (R141 "in model: yes"). -/
def recordedCodes : List (BitVec 6) := [0x0#6, 0x8#6, 0x9#6, 0xB#6, 0xC#6, 0xE#6]

/-- The invariant of the model: every step keeps it and reset has it. -/
structure Inv (s : State) : Prop where
  /-- Memory is in its canonical form. -/
  memory     : s.mem.wf
  /-- The stored words are word addresses, strictly rising. -/
  stored     : s.stored.Pairwise (· < ·) ∧ ∀ a ∈ s.stored, a % 4 = 0 ∧ a < 2 ^ 32
  /-- The current level is one the hardware implements (R167); the saved one may be any (D8). -/
  level      : s.crmd.plv = 0#2 ∨ s.crmd.plv = 3#2
  /-- Direct address translation mode (R66). -/
  direct     : DirectMode s
  /-- No memory access type is reserved (R68). -/
  accessType : s.crmd.datf.toNat < 2 ∧ s.crmd.datm.toNat < 2 ∧ ∀ i : Fin Config.numDmw, s.dmw[i].mat.toNat < 2
  /-- Only an exception of the model is recorded (R141); EsubCode is 0 for each. -/
  codes      : s.estat.ecode ∈ recordedCodes ∧ s.estat.esubcode = 0#9
  /-- An enabled timer has a count to start from (R171), and the counter never exceeds it (R170). -/
  timer      : (s.timer.en = true → s.timer.initVal ≠ 0#30) ∧ s.timer.val.toNat ≤ 4 * s.timer.initVal.toNat

/-- The instruction whose word stands at the pc, wherever that is; none if a byte has no value or the word is not in the
table. -/
def instrAtPc (s : State) : Option Instr :=
  match Memory.readLE s.mem s.pc.toNat 4 with
  | some w => match decodeWord w with
    | .ok i => some i
    | .error _ => none
  | none => none

/-- The exceptions an instruction by itself asks for in a state, each with the stage that detects it (R141, R151). -/
def instrEvents (i : Instr) (s : State) : List (Stage × Exception) :=
  let ipe := if s.crmd.plv = 0#2 then [] else [(Stage.decode, Exception.ipe)]
  match i with
  | .csrrd _ _ => ipe
  | .csrwr _ _ => ipe
  | .csrxchg _ _ _ => ipe
  | .ertn => ipe
  | .ori _ _ _ => []
  | .lu12iw _ _ => []
  | .andn _ _ _ => []
  | .or _ _ _ => []
  | .ldw _ rj si12 => if (s.readReg rj + si12.signExtend 32).toNat % 4 = 0 then [] else [(.execute, .ale)]
  | .stw _ rj si12 => if (s.readReg rj + si12.signExtend 32).toNat % 4 = 0 then [] else [(.execute, .ale)]
  | .syscall _ => [(.decode, .sys)]
  | .brk _ => [(.decode, .brk)]

/-- All events that apply to the instruction at the pc of a core step (R151), in no order: the accepted interrupt, the
misaligned pc, and what the instruction there asks for. -/
def events (accepts : Bool) (s : State) : List (Stage × Exception) :=
  (match instrAtPc s with | some i => instrEvents i s | none => []) ++
  (if s.pc.toNat % 4 = 0 then [] else [(.fetch, .adef)]) ++
  (if accepts && s.intPending then [(.marked, .int)] else [])

/-- `p` is an event of the list that R151 ranks first. -/
def FirstEvent (l : List (Stage × Exception)) (p : Stage × Exception) : Prop :=
  p ∈ l ∧ ∀ q ∈ l, ∃ m n, Exception.rank p.1 p.2 = some m ∧ Exception.rank q.1 q.2 = some n ∧ m ≤ n

/-- What user code can see of a state: the general registers, the pc and memory with its map (R168). -/
structure UserViewSame (s t : State) : Prop where
  gpr    : t.gpr = s.gpr
  pc     : t.pc = s.pc
  mem    : t.mem = s.mem
  memMap : t.memMap = s.memMap
  stored : t.stored = s.stored

/-- A list of instructions executed one after another, without the agents beside the core. -/
def runInstrs : List Instr → State → Host.Outcome State Fault Refusal
  | [], s => .next s
  | i :: l, s =>
    match exec i s with
    | .next t => runInstrs l t
    | .fault f => .fault f
    | .refused r => .refused r

/-- `k` core steps, stopping at the first fault or refusal. -/
def stepMany (k : Nat) (s : State) : Host.Outcome State Fault Refusal := Sys2Proof.core.run k s

/-- The end of a run (R207, D28): the pc is the stop address at a boundary, and the step there would take no interrupt,
because none is pending and enabled or because it declines it. DESIGN CHOICE, log entry 24: D28's wording is followed where
R207's is narrower, and the condition is judged on the lines and the latch as the coming step samples them. The spec marks
the end of a run as the model's own convention. -/
def atStop (stop : Word) (s : State) : Bool := s.pc == stop && !s.takesInterrupt

end Sys2Proof.Safety
end

