-- ==== Sys2Proof/Certificates/Slice0/Obligations.lean ====
section
/-! DEFINITION. The statements for the provers. -/

open Sys2Proof Sys2Proof.Machine Sys2Proof.Safety

/-! ## Encoding -/

/-- Words of section 2.1 of 95_test_vectors.md decode as it says (the LD.W word with its offset -4, log entry 14). -/
def Obligations.TableWordsDecode : Prop :=
  decodeTableWord 32 0x0400000C = some (.csrrd 12 0x0) ∧
  decodeTableWord 32 0x0400002C = some (.csrwr 12 0x0) ∧
  decodeTableWord 32 0x04000040 = some (.csrxchg 0 2 0x0) ∧
  decodeTableWord 32 0x06483800 = some .ertn ∧
  decodeTableWord 32 0x06483801 = none ∧
  decodeTableWord 32 0x1438000C = some (.lu12iw 12 0x1C000) ∧
  decodeTableWord 32 0x0016B58C = some (.andn 12 12 13) ∧
  decodeTableWord 32 0x28BFF18D = some (.ldw 13 12 0xFFC) ∧
  decodeTableWord 32 0x002B0000 = some (.syscall 0)

/-- Decoding the bytes of a well-formed instruction gives it back, with every operand, and leaves the bytes after it. -/
def Obligations.DecodeOfEncodeIsIdentity : Prop :=
  ∀ (i : Instr) (rest : List Byte), i.wellFormed = true → decodeBytes (encodeBytes i ++ rest) = .ok (i, rest)

/-- A word that decodes is the encoding of the instruction it decodes to, and that instruction is well formed. -/
def Obligations.EncodeOfDecodeIsIdentity : Prop :=
  ∀ (w : Word) (i : Instr), decodeWord w = .ok i → encode i = w ∧ i.wellFormed = true

/-- R84: a word decodes to an instruction exactly when it matches a row, `word & mask == match` (for CSRXCHG also
`rj >= 2`), and then to an instruction of such a row. -/
def Obligations.DecoderFollowsOpcodeMap : Prop :=
  ∀ w : Word,
    (∀ i, decodeWord w = .ok i → rowOf i ∈ opcodeTable ∧ w &&& (rowOf i).mask = (rowOf i).pattern ∧
      (rowOf i = rowCsrxchg → 2 ≤ (field w 5 5).toNat)) ∧
    ((∃ r ∈ opcodeTable, w &&& r.mask = r.pattern) → ∃ i, decodeWord w = .ok i) ∧
    ((∀ r ∈ opcodeTable, w &&& r.mask ≠ r.pattern) → decodeWord w = .error (.notInTable w))

/-- No word matches two rows of the opcode map, but for CSRXCHG's row, which takes in CSRRD's and CSRWR's (R82). -/
def Obligations.OpcodeRowsAreDisjoint : Prop :=
  ∀ (w : Word) (r q : OpcodeRow), r ∈ opcodeTable → q ∈ opcodeTable → r ≠ q →
    w &&& r.mask = r.pattern → w &&& q.mask = q.pattern →
    (r = rowCsrxchg ∧ (q = rowCsrrd ∨ q = rowCsrwr)) ∨ (q = rowCsrxchg ∧ (r = rowCsrrd ∨ r = rowCsrwr))

/-! ## The core step -/

/-- When the step fetches a word that decodes to `i`, the step is `exec i` at the state the other agents left. The form of
their input (log entries 3, 16) and the set of stored words (log entry 13) are the model's own. -/
def Obligations.StepExecutesFetchedInstruction : Prop :=
  ∀ (s : State) (w : Word) (i : Instr), Fetches s w → decodeWord w = .ok i → step s = exec i s.arrive

/-- R149: an accepted pending interrupt is taken as an ordinary exception at the pc, with Ecode 0 and EsubCode 0. -/
def Obligations.AcceptedInterruptIsTaken : Prop :=
  ∀ s : State, s.arrive.intPending = true → s.nextInput.accept = true →
    ∃ t, step s = .next t ∧ TookException .int s.pc none s.arrive t ∧
      t.estat.ecode = 0#6 ∧ t.estat.esubcode = 0#9 ∧ t.pc = csrRead .eentry s

/-- A step at a misaligned pc raises ADEF (Ecode 8, EsubCode 0) with BADV = pc. -/
def Obligations.MisalignedPcRaisesAdef : Prop :=
  ∀ s : State, s.takesInterrupt = false → s.pc.toNat % 4 ≠ 0 →
    ∃ t, step s = .next t ∧ TookException .adef s.pc (some s.pc) s.arrive t ∧
      t.estat.ecode = 0x8#6 ∧ t.estat.esubcode = 0#9

/-- The very next step after `withFetchWord` executes the instruction of that word. `withFetchWord` is the model's own tool
for loading a word (DESIGN CHOICE, log entry 2); the spec does not know it. -/
def Obligations.WithFetchWordRunsTheWord : Prop :=
  ∀ (s : State) (n : Nat) (i : Instr), s.mem.wf → decodeWord (BitVec.ofNat 32 (n % 2 ^ 32)) = .ok i →
    step (s.withFetchWord 32 n) = exec i (s.withFetchWord 32 n).arrive

/-- A fetched word outside the table is refused; it never raises INE. That it is refused is the default the model takes for
the open parameter BaseExec (DESIGN CHOICE, log entry 15; R85, D11). -/
def Obligations.WordOutsideTableIsRefused : Prop :=
  ∀ (s : State) (w : Word), Fetches s w → (∀ i, decodeWord w ≠ .ok i) → step s = .refused (.baseInstruction w)

/-- The input of a step is the head of the schedule, then a free value. At its beginning the timer makes the input's ticks
and the lines are sampled (R150, R170), and no register, other CSR or memory changes. The step uses one input, counts
itself, leaves the launch map, and does no more to the timer unless it executes a CSR write to TCFG or TICLR. The schedule
and the order of the events are the model's own (log entries 3, 16). -/
def Obligations.StepUsesOneInput : Prop :=
  ∀ s : State,
    (∀ inp rest, s.schedule = inp :: rest → s.nextInput = inp) ∧
    (s.schedule = [] → s.nextInput = Config.freeInput s.draws) ∧
    Arrived s s.arrive ∧
    ∀ t, step s = .next t →
      t.schedule = s.schedule.tail ∧ t.draws = s.draws + 1 ∧ t.lines = s.nextInput.lines ∧ t.memMap = s.memMap ∧
      (t.timer = s.timer.ticks s.nextInput.ticks ∨
        ∃ w i n, s.arrive.fetch = .ok w ∧ decodeWord w = .ok i ∧ (n = 0x41#14 ∨ n = 0x44#14) ∧
          ((∃ rd, i = .csrwr rd n) ∨ ∃ rd rj, i = .csrxchg rd rj n))

/-- R112: the pc goes to `pc + 4`, or an exception is taken, or the instruction is ERTN and the pc is what ERA held. -/
def Obligations.ErtnAloneTransfersControl : Prop :=
  ∀ s t : State, step s = .next t →
    t.pc = s.pc + 4#32 ∨ (∃ e b, TookException e s.pc b s.arrive t) ∨
    (t.pc = s.era ∧ ∃ w, s.arrive.fetch = .ok w ∧ decodeWord w = .ok .ertn)

/-! ## Base instructions -/

/-- R121: the encoding of ORI, and what it does in every state. -/
def Obligations.OriResult : Prop :=
  ∀ (rd rj : Reg) (ui12 : BitVec 12) (s : State),
    encode (.ori rd rj ui12) = 0x03800000#32 ||| place ui12 10 ||| place rj 5 ||| place rd 0 ∧
    ∃ t, exec (.ori rd rj ui12) s = .next t ∧ WroteOnlyReg rd (s.readReg rj ||| ui12.setWidth 32) s t

/-- R122: the encoding of LU12I.W, and what it does in every state. -/
def Obligations.Lu12iwResult : Prop :=
  ∀ (rd : Reg) (si20 : BitVec 20) (s : State),
    encode (.lu12iw rd si20) = 0x14000000#32 ||| place si20 5 ||| place rd 0 ∧
    ∃ t, exec (.lu12iw rd si20) s = .next t ∧ WroteOnlyReg rd (si20 ++ 0#12) s t

/-- R123: the encoding of ANDN, and what it does in every state. -/
def Obligations.AndnResult : Prop :=
  ∀ (rd rj rk : Reg) (s : State),
    encode (.andn rd rj rk) = 0x00168000#32 ||| place rk 10 ||| place rj 5 ||| place rd 0 ∧
    ∃ t, exec (.andn rd rj rk) s = .next t ∧ WroteOnlyReg rd (s.readReg rj &&& ~~~s.readReg rk) s t

/-- R124: the encoding of OR, and what it does in every state. -/
def Obligations.OrResult : Prop :=
  ∀ (rd rj rk : Reg) (s : State),
    encode (.or rd rj rk) = 0x00150000#32 ||| place rk 10 ||| place rj 5 ||| place rd 0 ∧
    ∃ t, exec (.or rd rj rk) s = .next t ∧ WroteOnlyReg rd (s.readReg rj ||| s.readReg rk) s t

/-- R125: the encoding of LD.W; an aligned load of readable memory gives the word; a misaligned one raises ALE (Ecode 9)
with BADV = the address. -/
def Obligations.LdwResult : Prop :=
  ∀ (rd rj : Reg) (si12 : BitVec 12) (s : State),
    encode (.ldw rd rj si12) = 0x28800000#32 ||| place si12 10 ||| place rj 5 ||| place rd 0 ∧
    (∀ v : Word, (s.readReg rj + si12.signExtend 32).toNat % 4 = 0 → DirectMode s →
      ReadableWord s (s.readReg rj + si12.signExtend 32).toNat v →
      ∃ t, exec (.ldw rd rj si12) s = .next t ∧ WroteOnlyReg rd v s t) ∧
    ((s.readReg rj + si12.signExtend 32).toNat % 4 ≠ 0 →
      ∃ t, exec (.ldw rd rj si12) s = .next t ∧
        TookException .ale s.pc (some (s.readReg rj + si12.signExtend 32)) s t ∧
        t.estat.ecode = 0x9#6 ∧ t.estat.esubcode = 0#9)

/-- R126: the encoding of ST.W; an aligned store to writable memory puts the word at the effective address and changes nothing else but the pc;
a misaligned one raises ALE (Ecode 9) with BADV = the address. That the word is recorded as stored is the model's
own (DESIGN CHOICE, log entry 13). -/
def Obligations.StwResult : Prop :=
  ∀ (rd rj : Reg) (si12 : BitVec 12) (s : State),
    encode (.stw rd rj si12) = 0x29800000#32 ||| place si12 10 ||| place rj 5 ||| place rd 0 ∧
    (s.mem.wf → (s.readReg rj + si12.signExtend 32).toNat % 4 = 0 → DirectMode s →
      WritableWord s (s.readReg rj + si12.signExtend 32).toNat →
      ∃ t, exec (.stw rd rj si12) s = .next t ∧
        StoredWord s t (s.readReg rj + si12.signExtend 32).toNat (s.readReg rd) ∧
        RegsSame s t ∧ t.pc = s.pc + 4#32 ∧ CsrsSame s t ∧ OutsideSame s t) ∧
    ((s.readReg rj + si12.signExtend 32).toNat % 4 ≠ 0 →
      ∃ t, exec (.stw rd rj si12) s = .next t ∧
        TookException .ale s.pc (some (s.readReg rj + si12.signExtend 32)) s t ∧
        t.estat.ecode = 0x9#6 ∧ t.estat.esubcode = 0#9)

/-- R127: the encoding of SYSCALL; it raises SYS (Ecode 0xB) at every privilege level, whatever its code. -/
def Obligations.SyscallTraps : Prop :=
  ∀ (code : BitVec 15) (s : State),
    encode (.syscall code) = 0x002B0000#32 ||| place code 0 ∧
    ∃ t, exec (.syscall code) s = .next t ∧ TookException .sys s.pc none s t ∧
      t.estat.ecode = 0xB#6 ∧ t.estat.esubcode = 0#9

/-- R128: the encoding of BREAK; it raises BRK (Ecode 0xC) at every privilege level, whatever its code. -/
def Obligations.BreakTraps : Prop :=
  ∀ (code : BitVec 15) (s : State),
    encode (.brk code) = 0x002A0000#32 ||| place code 0 ∧
    ∃ t, exec (.brk code) s = .next t ∧ TookException .brk s.pc none s t ∧
      t.estat.ecode = 0xC#6 ∧ t.estat.esubcode = 0#9

/-- R129: the expansion of `li rd, imm` loads `imm` into `rd` and changes nothing else but the pc. -/
def Obligations.LiLoadsConstant : Prop :=
  ∀ (rd : Reg) (imm : Word) (s : State),
    ∃ t, runInstrs (expandLi rd imm) s = .next t ∧ OnlyReg rd imm s t ∧
      t.pc = s.pc + BitVec.ofNat 32 (4 * (expandLi rd imm).length) ∧ CsrsSame s t ∧ MemSame s t ∧ OutsideSame s t

/-! ## Memory -/

/-- Where an aligned LD.W stops: outside direct mode, at a byte `MemMap` does not hold, in a device region, at a byte
without a value. The model's own: the refusal in mapped mode (DEDUCED, log entry 11), and which stop comes first where the
bytes lie in different regions (DESIGN CHOICE, log entry 12). -/
def Obligations.LoadStops : Prop :=
  ∀ (rd rj : Reg) (si12 : BitVec 12) (s : State) (a : Word),
    a = s.readReg rj + si12.signExtend 32 → a.toNat % 4 = 0 →
    (¬ DirectMode s → exec (.ldw rd rj si12) s = .refused (.mappedAccess .load a)) ∧
    (DirectMode s →
      ((∃ k, k < 4 ∧ regionAt s.memMap (a.toNat + k) = none) →
        exec (.ldw rd rj si12) s = .fault (.unmappedAddress .load a)) ∧
      ((∀ k, k < 4 → regionAt s.memMap (a.toNat + k) ≠ none) →
        (∃ k, k < 4 ∧ regionAt s.memMap (a.toNat + k) = some .device) →
        exec (.ldw rd rj si12) s = .refused (.deviceAccess .load a)) ∧
      ((∀ k, k < 4 → regionAt s.memMap (a.toNat + k) = some .ram ∨ regionAt s.memMap (a.toNat + k) = some .rom) →
        (∃ k, k < 4 ∧ Memory.read s.mem (a.toNat + k) = none) →
        exec (.ldw rd rj si12) s = .fault (.uninitialisedByte .load a)))

/-- Where an aligned ST.W stops: outside direct mode, at a byte `MemMap` does not hold, in a device region, in a read-only
region. The model's own: the refusal in mapped mode (DEDUCED, log entry 11), and which stop comes first where the bytes lie
in different regions (DESIGN CHOICE, log entry 12). -/
def Obligations.StoreStops : Prop :=
  ∀ (rd rj : Reg) (si12 : BitVec 12) (s : State) (a : Word),
    a = s.readReg rj + si12.signExtend 32 → a.toNat % 4 = 0 →
    (¬ DirectMode s → exec (.stw rd rj si12) s = .refused (.mappedAccess .store a)) ∧
    (DirectMode s →
      ((∃ k, k < 4 ∧ regionAt s.memMap (a.toNat + k) = none) →
        exec (.stw rd rj si12) s = .fault (.unmappedAddress .store a)) ∧
      ((∀ k, k < 4 → regionAt s.memMap (a.toNat + k) ≠ none) →
        (∃ k, k < 4 ∧ regionAt s.memMap (a.toNat + k) = some .device) →
        exec (.stw rd rj si12) s = .refused (.deviceAccess .store a)) ∧
      ((∀ k, k < 4 → regionAt s.memMap (a.toNat + k) = some .ram ∨ regionAt s.memMap (a.toNat + k) = some .rom) →
        (∃ k, k < 4 ∧ regionAt s.memMap (a.toNat + k) = some .rom) →
        exec (.stw rd rj si12) s = .fault (.readOnlyStore a)))

/-- Where a step without an interrupt stops at an aligned pc: outside direct mode, at a byte `MemMap` does not hold, in a
device region, at a byte without a value (D16, ID21). The model's own: the refusal in mapped mode (DEDUCED, log entry 11),
and which stop comes first where the bytes lie in different regions (DESIGN CHOICE, log entry 12). -/
def Obligations.FetchStops : Prop :=
  ∀ s : State, s.takesInterrupt = false → s.pc.toNat % 4 = 0 →
    (¬ DirectMode s → step s = .refused (.mappedAccess .fetch s.pc)) ∧
    (DirectMode s →
      ((∃ k, k < 4 ∧ regionAt s.memMap (s.pc.toNat + k) = none) → step s = .fault (.unmappedAddress .fetch s.pc)) ∧
      ((∀ k, k < 4 → regionAt s.memMap (s.pc.toNat + k) ≠ none) →
        (∃ k, k < 4 ∧ regionAt s.memMap (s.pc.toNat + k) = some .device) →
        step s = .refused (.deviceAccess .fetch s.pc)) ∧
      ((∀ k, k < 4 → regionAt s.memMap (s.pc.toNat + k) = some .ram ∨ regionAt s.memMap (s.pc.toNat + k) = some .rom) →
        (∃ k, k < 4 ∧ Memory.read s.mem (s.pc.toNat + k) = none) →
        step s = .fault (.uninitialisedByte .fetch s.pc)))

/-- R71: a word that ST.W wrote is refused when a step without an interrupt fetches it. The set of stored words that finds
it is the model's own (DESIGN CHOICE, log entry 13). -/
def Obligations.FetchOfStoredWordIsRefused : Prop :=
  ∀ (rd rj : Reg) (si12 : BitVec 12) (s t u : State), s.mem.wf →
    exec (.stw rd rj si12) s = .next t → (s.readReg rj + si12.signExtend 32).toNat % 4 = 0 →
    u.pc = s.readReg rj + si12.signExtend 32 → u.takesInterrupt = false → DirectMode u →
    u.mem = t.mem → u.memMap = t.memMap → u.stored = t.stored →
    step u = .refused (.fetchOfStoredWord u.pc)

/-- R61: after a 4-byte write, each byte reads as its part of the value, the lowest address bits 7:0, and the word reads
back whole. -/
def Obligations.NarrowReadSeesWideWrite : Prop :=
  ∀ (s t : State) (a v : Word), s.mem.wf → s.memWrite a 4 v = .ok t →
    t.memRead .load a 4 = .ok v ∧
    ∀ k, k < 4 → t.memRead .load (a + BitVec.ofNat 32 k) 1 = .ok (byteOf v k)

/-- Memory changes in a step only where a fetched ST.W stores its word. That the word is then recorded as stored is the
model's own (DESIGN CHOICE, log entry 13). -/
def Obligations.MemoryChangesOnlyByStore : Prop :=
  ∀ s t : State, s.mem.wf → step s = .next t →
    MemSame s t ∨
    ∃ w rd rj si12, s.arrive.fetch = .ok w ∧ decodeWord w = .ok (.stw rd rj si12) ∧
      StoredWord s t (s.readReg rj + si12.signExtend 32).toNat (s.readReg rd)

/-! ## The CSR space -/

/-- The numbers of the table of R14, those of SAVE0 to SAVE3 (the model's addition, log entry 8), and that every CSR has
its own number, which `ofNumber` finds. -/
def Obligations.CsrNumbersAreUnique : Prop :=
  ([Csr.crmd, .prmd, .euen, .ecfg, .estat, .era, .badv, .eentry, .tcfg, .tval, .ticlr, .llbctl, .tlbrentry].map
      (fun c => c.number.toNat) =
    [0x0, 0x1, 0x2, 0x4, 0x5, 0x6, 0x7, 0xC, 0x41, 0x42, 0x44, 0x60, 0x88]) ∧
  (∀ i : Fin Config.numDmw, (Csr.dmw i).number.toNat = 0x180 + i.val) ∧
  (∀ i : Fin 4, (Csr.save i).number.toNat = 0x30 + i.val) ∧
  (∀ c : Csr, Csr.ofNumber c.number = some c) ∧ ∀ (n : CsrNumber) (c : Csr), Csr.ofNumber n = some c → c.number = n

/-- The words CsrRead assembles from the mode, exception and interrupt registers (R16 to R24): every field at its place,
every reserved bit 0. -/
def Obligations.ExceptionCsrLayout : Prop :=
  ∀ s : State,
    (field (csrRead .crmd s) 0 2 = s.crmd.plv ∧ bit (csrRead .crmd s) 2 = s.crmd.ie ∧
      bit (csrRead .crmd s) 3 = s.crmd.da ∧ bit (csrRead .crmd s) 4 = s.crmd.pg ∧
      field (csrRead .crmd s) 5 2 = s.crmd.datf ∧ field (csrRead .crmd s) 7 2 = s.crmd.datm ∧
      field (csrRead .crmd s) 9 23 = 0#23) ∧
    (field (csrRead .prmd s) 0 2 = s.prmd.pplv ∧ bit (csrRead .prmd s) 2 = s.prmd.pie ∧
      field (csrRead .prmd s) 3 29 = 0#29) ∧
    (bit (csrRead .euen s) 0 = s.euen.fpuen ∧ field (csrRead .euen s) 1 31 = 0#31) ∧
    (field (csrRead .ecfg s) 0 10 = s.ecfg.lieLow ∧ bit (csrRead .ecfg s) 10 = false ∧
      field (csrRead .ecfg s) 11 2 = s.ecfg.lieHigh ∧ field (csrRead .ecfg s) 13 19 = 0#19) ∧
    (field (csrRead .estat s) 0 2 = s.estat.swi ∧ field (csrRead .estat s) 2 8 = s.lines.hwi ∧
      bit (csrRead .estat s) 10 = false ∧ bit (csrRead .estat s) 11 = s.timer.int ∧
      bit (csrRead .estat s) 12 = s.lines.ipi ∧ field (csrRead .estat s) 13 3 = 0#3 ∧
      field (csrRead .estat s) 16 6 = s.estat.ecode ∧ field (csrRead .estat s) 22 9 = s.estat.esubcode ∧
      bit (csrRead .estat s) 31 = false) ∧
    csrRead .era s = s.era ∧ csrRead .badv s = s.badv ∧
    (field (csrRead .eentry s) 0 6 = 0#6 ∧ field (csrRead .eentry s) 6 26 = s.eentry) ∧
    (field (csrRead .tlbrentry s) 0 6 = 0#6 ∧ field (csrRead .tlbrentry s) 6 26 = s.tlbrentry)

/-- The words CsrRead assembles from the timer, LL and window registers (R25 to R29). While the timer runs TVAL reads the
counter; what it reads while the timer is stopped is free and not stated. -/
def Obligations.TimerAndWindowCsrLayout : Prop :=
  ∀ s : State,
    (bit (csrRead .tcfg s) 0 = s.timer.en ∧ bit (csrRead .tcfg s) 1 = s.timer.periodic ∧
      field (csrRead .tcfg s) 2 30 = s.timer.initVal) ∧
    (s.timer.running = true → csrRead .tval s = s.timer.val) ∧
    csrRead .ticlr s = 0#32 ∧
    (bit (csrRead .llbctl s) 0 = s.llbctl.llbit ∧ bit (csrRead .llbctl s) 1 = false ∧
      bit (csrRead .llbctl s) 2 = s.llbctl.klo ∧ field (csrRead .llbctl s) 3 29 = 0#29) ∧
    ∀ i : Fin Config.numDmw,
      bit (csrRead (.dmw i) s) 0 = s.dmw[i].plv0 ∧ field (csrRead (.dmw i) s) 1 2 = 0#2 ∧
      bit (csrRead (.dmw i) s) 3 = s.dmw[i].plv3 ∧ field (csrRead (.dmw i) s) 4 2 = s.dmw[i].mat ∧
      field (csrRead (.dmw i) s) 6 19 = 0#19 ∧ field (csrRead (.dmw i) s) 25 3 = s.dmw[i].pseg ∧
      bit (csrRead (.dmw i) s) 28 = false ∧ field (csrRead (.dmw i) s) 29 3 = s.dmw[i].vseg

/-- R101: a CSR write that the table does not refuse changes the masked bits and makes its side effects, and nothing else;
a write the table refuses is refused. Of PRMD any write is done, as D8 says (log entry 9). -/
def Obligations.CsrWriteFollowsMask : Prop :=
  ∀ (c : Csr) (v : Word) (s : State), (∀ i, c ≠ .save i) →
    (WriteLegal c v → ∃ t, csrWrite c v s = .ok t ∧ CsrWritten c v s t ∧ RegsSame s t ∧ t.pc = s.pc) ∧
    (¬ WriteLegal c v → ∃ r, csrWrite c v s = .refused r)

/-- R102 at PLV0: CSRRD puts the CSR's word in `rd`. -/
def Obligations.CsrrdResult : Prop :=
  ∀ (rd : Reg) (n : CsrNumber) (c : Csr) (s : State), s.crmd.plv = 0#2 → Csr.ofNumber n = some c →
    ∃ t, exec (.csrrd rd n) s = .next t ∧ WroteOnlyReg rd (csrRead c s) s t

/-- R103 at PLV0: CSRWR writes `x[rd]` to the CSR and puts the CSR's old word in `rd`, in one step; a value the table of
R101 refuses is refused, but for PRMD: there every value is written, as D8 says (DEDUCED, log entry 9). SAVE0 to SAVE3 are
the model's addition (DESIGN CHOICE, log entry 8). -/
def Obligations.CsrwrResult : Prop :=
  ∀ (rd : Reg) (n : CsrNumber) (c : Csr) (s : State), s.crmd.plv = 0#2 → Csr.ofNumber n = some c →
    (WriteLegal c (s.readReg rd) →
      ∃ t, exec (.csrwr rd n) s = .next t ∧ OnlyReg rd (csrRead c s) s t ∧ t.pc = s.pc + 4#32 ∧
        CsrWritten c (s.readReg rd) s t) ∧
    (¬ WriteLegal c (s.readReg rd) → ∃ r, exec (.csrwr rd n) s = .refused r)

/-- R104 at PLV0: CSRXCHG replaces the bits of the CSR where the mask `x[rj]` is 1 by those of `x[rd]` and puts the CSR's
old word in `rd`; a mask of 0 changes no CSR (the model's reading: DEDUCED, log entry 10). A new value the table of R101
refuses is refused, but for PRMD: there every value is written, as D8 says (DEDUCED, log entry 9). SAVE0 to SAVE3 are the
model's addition (DESIGN CHOICE, log entry 8). -/
def Obligations.CsrxchgResult : Prop :=
  ∀ (rd rj : Reg) (n : CsrNumber) (c : Csr) (s : State) (new : Word),
    s.crmd.plv = 0#2 → Csr.ofNumber n = some c →
    new = (csrRead c s &&& ~~~s.readReg rj) ||| (s.readReg rd &&& s.readReg rj) →
    (s.readReg rj = 0#32 → ∃ t, exec (.csrxchg rd rj n) s = .next t ∧ WroteOnlyReg rd (csrRead c s) s t) ∧
    (s.readReg rj ≠ 0#32 → WriteLegal c new →
      ∃ t, exec (.csrxchg rd rj n) s = .next t ∧ OnlyReg rd (csrRead c s) s t ∧ t.pc = s.pc + 4#32 ∧
        CsrWritten c new s t) ∧
    (s.readReg rj ≠ 0#32 → ¬ WriteLegal c new → ∃ r, exec (.csrxchg rd rj n) s = .refused r)

/-- The model's addition (R31, log entry 8): SAVE0 to SAVE3 at numbers 0x30 to 0x33 hold what software writes. -/
def Obligations.SaveRegistersAreScratch : Prop :=
  ∀ (i : Fin 4) (rd rd' : Reg) (s : State), s.crmd.plv = 0#2 →
    ∃ t, exec (.csrwr rd (BitVec.ofNat 14 (0x30 + i.val))) s = .next t ∧ t.save[i] = s.readReg rd ∧
      OnlyReg rd s.save[i] s t ∧ t.pc = s.pc + 4#32 ∧ (∀ j, j ≠ i → t.save[j] = s.save[j]) ∧
      ∃ u, exec (.csrrd rd' (BitVec.ofNat 14 (0x30 + i.val))) t = .next u ∧ WroteOnlyReg rd' (s.readReg rd) t u

/-- At PLV0 the three CSR instructions refuse a number that names no CSR. -/
def Obligations.UndefinedCsrIsRefused : Prop :=
  ∀ (rd rj : Reg) (n : CsrNumber) (s : State), s.crmd.plv = 0#2 → Csr.ofNumber n = none →
    exec (.csrrd rd n) s = .refused (.undefinedCsr n) ∧ exec (.csrwr rd n) s = .refused (.undefinedCsr n) ∧
    exec (.csrxchg rd rj n) s = .refused (.undefinedCsr n)

/-- R105, and R110's privilege check: outside PLV0 the four privileged instructions have no effect but to raise IPE
(Ecode 0xE), whatever the CSR number. -/
def Obligations.PrivilegedInstructionsTrap : Prop :=
  ∀ (rd rj : Reg) (n : CsrNumber) (s : State), s.crmd.plv ≠ 0#2 →
    ∀ i ∈ [Instr.csrrd rd n, .csrwr rd n, .csrxchg rd rj n, .ertn],
      ∃ t, exec i s = .next t ∧ TookException .ipe s.pc none s t ∧
        t.estat.ecode = 0xE#6 ∧ t.estat.esubcode = 0#9

/-! ## Exceptions and the return from them -/

/-- R160, with the entry of R161 and the record of BADV of R142: what Trap does, for every exception. The switch to direct
mode at the TLB refill exception is R162's; that exception cannot arise in the model, and its clause rests on the model's
reading (DEDUCED, log entry 11). -/
def Obligations.ExceptionEntry : Prop :=
  ∀ (e : Exception) (epc badv : Word) (s : State),
    TookException e epc (if e.recordsBadv then some badv else none) s (s.trap e epc badv)

/-- The codes of R141 and the exceptions that record an address (R142). -/
def Obligations.ExceptionCodes : Prop :=
  [Exception.int, .pil, .pis, .pif, .pme, .ppi, .adef, .adem, .ale, .sys, .brk, .ine, .ipe, .fpd, .fpe, .tlbr].map
      (fun e => (e.ecode.toNat, e.esubcode.toNat, e.recordsBadv)) =
    [(0x0, 0, false), (0x1, 0, true), (0x2, 0, true), (0x3, 0, true), (0x4, 0, true), (0x7, 0, true), (0x8, 0, true),
      (0x8, 1, true), (0x9, 0, true), (0xB, 0, false), (0xC, 0, false), (0xD, 0, false), (0xE, 0, false),
      (0xF, 0, false), (0x12, 0, false), (0x3F, 0, true)] ∧
  ∀ e : Exception, e ∈ [Exception.int, .pil, .pis, .pif, .pme, .ppi, .adef, .adem, .ale, .sys, .brk, .ine, .ipe, .fpd,
    .fpe, .tlbr]

/-- R110, R111: ERTN at PLV0. The clause for Ecode 0x3F, which leads to mapped mode, is the model's reading of a case the
spec says cannot arise (DEDUCED, log entry 11). -/
def Obligations.ErtnReturns : Prop :=
  ∀ s : State, s.crmd.plv = 0#2 →
    ((s.prmd.pplv = 0#2 ∨ s.prmd.pplv = 3#2) →
      ∃ t, exec .ertn s = .next t ∧
        t.crmd.plv = s.prmd.pplv ∧ t.crmd.ie = s.prmd.pie ∧ t.pc = s.era ∧
        (s.estat.ecode ≠ 0x3F#6 → t.crmd.da = s.crmd.da ∧ t.crmd.pg = s.crmd.pg) ∧
        (s.estat.ecode = 0x3F#6 → t.crmd.da = false ∧ t.crmd.pg = true) ∧
        t.crmd.datf = s.crmd.datf ∧ t.crmd.datm = s.crmd.datm ∧
        t.llbctl.klo = false ∧ t.llbctl.llbit = (if s.llbctl.klo then s.llbctl.llbit else false) ∧
        t.prmd = s.prmd ∧ t.era = s.era ∧ t.estat = s.estat ∧ t.badv = s.badv ∧ t.euen = s.euen ∧ t.ecfg = s.ecfg ∧
        t.eentry = s.eentry ∧ t.timer = s.timer ∧ t.tlbrentry = s.tlbrentry ∧ t.dmw = s.dmw ∧ t.save = s.save ∧
        RegsSame s t ∧ MemSame s t ∧ OutsideSame s t) ∧
    ((s.prmd.pplv = 1#2 ∨ s.prmd.pplv = 2#2) → exec .ertn s = .refused (.illegalPrivilegeLevel s.prmd.pplv))

/-- R151: of the events that apply to an instruction exactly the one ranked first is taken; with none the fetched
instruction is executed and raises nothing. -/
def Obligations.FirstRankedEventIsTaken : Prop :=
  ∀ s t : State, step s = .next t →
    (events s.nextInput.accept s.arrive ≠ [] →
      ∃ p b, FirstEvent (events s.nextInput.accept s.arrive) p ∧ TookException p.2 s.pc b s.arrive t) ∧
    (events s.nextInput.accept s.arrive = [] →
      ∃ w i, s.arrive.fetch = .ok w ∧ decodeWord w = .ok i ∧ instrEvents i s.arrive = [] ∧ exec i s.arrive = .next t)

/-! ## Interrupts -/

/-- R146 with the bit positions of R143 and R145: the vector is IS and LIE bit by bit, and bit 10 is always 0. -/
def Obligations.InterruptVectorBits : Prop :=
  ∀ s : State,
    (∀ k, k < 2 → s.intVec.getLsbD k = (s.estat.swi.getLsbD k && s.ecfg.lieLow.getLsbD k)) ∧
    (∀ k, k < 8 → s.intVec.getLsbD (2 + k) = (s.lines.hwi.getLsbD k && s.ecfg.lieLow.getLsbD (2 + k))) ∧
    s.intVec.getLsbD 10 = false ∧
    s.intVec.getLsbD 11 = (s.timer.int && s.ecfg.lieHigh.getLsbD 0) ∧
    s.intVec.getLsbD 12 = (s.lines.ipi && s.ecfg.lieHigh.getLsbD 1) ∧
    (s.intPending = true ↔ s.crmd.ie = true ∧ s.intVec ≠ 0#13)

/-- R148: the arbitration selects a pending enabled interrupt of the largest number, and selects none only if there is
none; when an interrupt is taken it selects one, which leaves no trace: whichever it is, the entry, the code and the
pending bits are the same. -/
def Obligations.LargestInterruptNumberWins : Prop :=
  (∀ (v : IntVec) (i : Interrupt), arbitrate v = some i →
    v.getLsbD i.number = true ∧ ∀ j : Interrupt, v.getLsbD j.number = true → j.number ≤ i.number) ∧
  (∀ v : IntVec, arbitrate v = none → ∀ j : Interrupt, v.getLsbD j.number = false) ∧
  ∀ s : State, s.takesInterrupt = true → ∃ i t, arbitrate s.arrive.intVec = some i ∧ step s = .next t ∧
    t.pc = csrRead .eentry s ∧ t.estat.ecode = 0#6 ∧ t.estat.esubcode = 0#9 ∧ t.isVec = s.arrive.isVec

/-- R144: taking an interrupt changes no pending bit: the external ones are the sampled lines, the latch and the software
bits stay, so the same vector is pending with IE restored. -/
def Obligations.InterruptEntryKeepsPendingBits : Prop :=
  ∀ s t : State, s.takesInterrupt = true → step s = .next t →
    t.isVec = s.arrive.isVec ∧ t.lieVec = s.arrive.lieVec ∧ t.lines = s.nextInput.lines ∧
      { t with crmd := { t.crmd with ie := true } }.intPending = true

/-- A pending interrupt is taken at the first step whose scheduled input accepts: bounded response along every run. -/
def Obligations.ScheduledAcceptanceTakesInterrupt : Prop :=
  ∀ (k : Nat) (run : Nat → State) (inp : StepInput),
    (∀ j, j < k → step (run j) = .next (run (j + 1))) → (run 0).schedule[k]? = some inp → inp.accept = true →
    (run k).arrive.intPending = true →
    ∃ t, step (run k) = .next t ∧ TookException .int (run k).pc none (run k).arrive t

/-- A CSRXCHG that sets IE lets an interrupt be taken at the very next instruction, and one that clears IE blocks
interrupts from it. -/
def Obligations.EnableTakesEffectAtNextInstruction : Prop :=
  ∀ (rd rj : Reg) (s t : State), s.crmd.plv = 0#2 → bit (s.readReg rj) 2 = true →
    exec (.csrxchg rd rj 0x0#14) s = .next t →
    (bit (s.readReg rd) 2 = true → t.arrive.intVec ≠ 0#13 → t.nextInput.accept = true →
      ∃ u, step t = .next u ∧ TookException .int (s.pc + 4#32) none t.arrive u) ∧
    (bit (s.readReg rd) 2 = false → t.takesInterrupt = false)

/-! ## The timer -/

/-- R170: an enabled running timer counts one down a tick and raises the interrupt exactly when it reaches zero. -/
def Obligations.TimerCountsDownToInterrupt : Prop :=
  ∀ (t : Timer) (m : Nat), t.en = true → t.running = true → m ≤ t.val.toNat →
    (t.ticks m).val.toNat = t.val.toNat - m ∧
    (t.ticks m).int = (t.int || (decide (0 < t.val.toNat) && decide (m = t.val.toNat))) ∧
    (t.ticks m).running = true ∧ (t.ticks m).en = true ∧ (t.ticks m).periodic = t.periodic ∧
    (t.ticks m).initVal = t.initVal

/-- R170: the tick after zero reloads a periodic timer from InitVal with two 0 bits appended, and stops a one-shot timer
for good, without another interrupt. -/
def Obligations.TimerReloadsOrStops : Prop :=
  ∀ t : Timer, t.en = true → t.running = true →
    (t.periodic = true →
      (t.ticks (t.val.toNat + 1)).val.toNat = 4 * t.initVal.toNat ∧ (t.ticks (t.val.toNat + 1)).running = true) ∧
    (t.periodic = false →
      (t.ticks (t.val.toNat + 1)).running = false ∧
      ∀ m, t.ticks (t.val.toNat + 1 + m) = t.ticks (t.val.toNat + 1)) ∧
    (t.ticks (t.val.toNat + 1)).int = (t.ticks t.val.toNat).int

/-- A timer that is disabled or stopped holds, and the latch once set stays set however many ticks come. -/
def Obligations.TimerHoldsAndLatchStays : Prop :=
  ∀ (t : Timer) (n : Nat),
    ((t.en = false ∨ t.running = false) → t.ticks n = t) ∧ (t.int = true → (t.ticks n).int = true)

/-! ## Privilege -/

/-- R167: a step outside PLV0 stays at its level, with CRMD unchanged, or takes an exception or interrupt. -/
def Obligations.OnlyExceptionsEnterKernel : Prop :=
  ∀ s t : State, s.crmd.plv ≠ 0#2 → step s = .next t →
    t.crmd = s.crmd ∨ ∃ e b, TookException e s.pc b s.arrive t

/-- R167: the ways from PLV0 to another level are ERTN and a CSR write to CRMD. -/
def Obligations.KernelIsLeftByErtnOrCrmdWrite : Prop :=
  ∀ s t : State, s.crmd.plv = 0#2 → step s = .next t → t.crmd.plv ≠ 0#2 →
    ∃ w i, s.arrive.fetch = .ok w ∧ decodeWord w = .ok i ∧
      (i = .ertn ∨ (∃ rd, i = .csrwr rd 0x0#14) ∨ ∃ rd rj, i = .csrxchg rd rj 0x0#14)

/-- R168: outside PLV0 no step writes a CSR but by taking an exception. -/
def Obligations.UserCannotWriteCsrs : Prop :=
  ∀ s t : State, s.crmd.plv ≠ 0#2 → step s = .next t →
    CsrsSame s.arrive t ∨ ∃ e b, TookException e s.pc b s.arrive t

/-- R168: what a step outside PLV0 does to the registers, the pc and memory does not depend on any CSR, the timer or the
lines, as long as no exception or interrupt is taken. -/
def Obligations.UserCannotReadCsrs : Prop :=
  ∀ s s' t : State, s.crmd.plv ≠ 0#2 → s'.crmd.plv ≠ 0#2 → UserViewSame s s' →
    s'.crmd.da = s.crmd.da → s'.crmd.pg = s.crmd.pg → s.takesInterrupt = false → s'.takesInterrupt = false →
    step s = .next t → t.crmd.plv ≠ 0#2 →
    ∃ t', step s' = .next t' ∧ UserViewSame t t'

/-! ## Invariant and reset -/

/-- Every step keeps the invariant. Its clause on the stored words is about the model's own set (DESIGN CHOICE, log entry
13). -/
def Obligations.StepKeepsInvariant : Prop := ∀ s t : State, Inv s → step s = .next t → Inv t

/-- The reset state has the invariant (its Ecode, EsubCode and timer fields are the values log entry 1 names). -/
def Obligations.ResetHasInvariant : Prop := Inv State.reset

/-- R200: the state after reset release, as far as the spec determines it. -/
def Obligations.ResetState : Prop :=
  State.reset.pc = 0x1C000000#32 ∧
  State.reset.crmd.plv = 0#2 ∧ State.reset.crmd.ie = false ∧ State.reset.crmd.da = true ∧ State.reset.crmd.pg = false ∧
  State.reset.crmd.datf = 0#2 ∧ State.reset.crmd.datm = 0#2 ∧ csrRead .crmd State.reset = 0x00000008#32 ∧
  State.reset.euen.fpuen = false ∧ csrRead .ecfg State.reset = 0#32 ∧ State.reset.estat.swi = 0#2 ∧
  State.reset.timer.en = false ∧ State.reset.llbctl.klo = false ∧
  ∀ i : Fin Config.numDmw, State.reset.dmw[i].plv0 = false ∧ State.reset.dmw[i].plv3 = false

/-- A reset the host applies to any state gives the values of R48 that the spec determines again, and leaves memory and its
map (DESIGN CHOICE, log entry 7); no interrupt can then be taken in the next step, whatever the lines and the latch do. -/
def Obligations.HostResetKeepsMemory : Prop :=
  ∀ s : State,
    s.applyReset.pc = 0x1C000000#32 ∧ csrRead .crmd s.applyReset = 0x00000008#32 ∧
    csrRead .euen s.applyReset = 0#32 ∧ csrRead .ecfg s.applyReset = 0#32 ∧ s.applyReset.estat.swi = 0#2 ∧
    s.applyReset.timer.en = false ∧ s.applyReset.llbctl.klo = false ∧
    (∀ i : Fin Config.numDmw, s.applyReset.dmw[i].plv0 = false ∧ s.applyReset.dmw[i].plv3 = false) ∧
    MemSame s s.applyReset ∧
    s.applyReset.memMap = s.memMap ∧ s.applyReset.takesInterrupt = false
end

