-- ==== Sys2Proof/Laws/Agents.lean ====
section
/-! SUPPORT. What ticks of the timer can do (R170). -/

namespace Sys2Proof.Machine

@[simp] theorem Timer.ticks_zero (t : Timer) : t.ticks 0 = t := rfl

theorem Timer.ticks_succ (t : Timer) (n : Nat) : t.ticks (n + 1) = t.tick.ticks n := rfl

/-- Ticks made one after another add up. -/
theorem Timer.ticks_add (t : Timer) (a b : Nat) : t.ticks (a + b) = (t.ticks a).ticks b := by
  induction a generalizing t with
  | zero => rw [Nat.zero_add, Timer.ticks_zero]
  | succ a ih => rw [show a + 1 + b = (a + b) + 1 by omega, Timer.ticks_succ, Timer.ticks_succ, ih]

/-- A timer that is disabled or stopped holds. -/
theorem Timer.tick_idle (t : Timer) (h : t.en = false ∨ t.running = false) : t.tick = t := by
  unfold Timer.tick
  rcases h with h | h <;> simp [h]

/-- A tick above zero counts down; the step from 1 to 0 sets the latch. -/
theorem Timer.tick_down (t : Timer) (he : t.en = true) (hr : t.running = true) (hv : t.val ≠ 0#32) :
    t.tick = { t with val := t.val - 1#32, int := t.int || t.val - 1#32 == 0#32 } := by
  simp [Timer.tick, he, hr, hv]

/-- The tick at zero reloads a periodic timer and stops a one-shot timer. -/
theorem Timer.tick_zero (t : Timer) (he : t.en = true) (hr : t.running = true) (hv : t.val = 0#32) :
    t.tick = if t.periodic then { t with val := initCount t.initVal } else { t with running := false } := by
  simp [Timer.tick, he, hr, hv]

end Sys2Proof.Machine
end

