-- ==== Sys2Proof/Laws/Bits.lean ====
section
/-! SUPPORT. The bits of a field, of a placed field, and of the bytes of a word. -/

namespace Sys2Proof.Machine

@[simp] theorem getElem_place {n : Nat} (v : BitVec n) (lo j : Nat) (h : j < 32) :
    (place v lo)[j] = (!decide (j < lo) && v.getLsbD (j - lo)) := by
  simp [place, BitVec.getElem_shiftLeft]

@[simp] theorem getElem_field (w : Word) (lo n j : Nat) (h : j < n) : (field w lo n)[j] = w.getLsbD (lo + j) := by
  simp [field]

@[simp] theorem getElem_placeBit (b : Bool) (i j : Nat) (h : j < 32) : (placeBit b i)[j] = (decide (j = i) && b) := by
  simp only [placeBit, getElem_place, BitVec.getLsbD_ofBool]
  by_cases hj : j < i
  · simp [hj, Nat.ne_of_lt hj]
  · by_cases he : j = i
    · simp [he]
    · have : ¬ (j - i = 0) := by omega
      simp [hj, he, this]

@[simp] theorem getElem_byteOf (w : Word) (k j : Nat) (h : j < 8) : (byteOf w k)[j] = w.getLsbD (8 * k + j) := by
  simp [byteOf]

theorem bit_eq_getElem (w : Word) (i : Nat) (h : i < 32) : bit w i = w[i] := by
  simp [bit, BitVec.getLsbD_eq_getElem h]

/-- The four bytes of a word, put together in memory order, are the word (R61). -/
theorem ofBytes_byteOf (w : Word) : ofBytes (byteOf w 0) (byteOf w 1) (byteOf w 2) (byteOf w 3) = w := by
  apply BitVec.eq_of_getElem_eq
  intro j hj
  interval_cases j <;> simp [ofBytes]

end Sys2Proof.Machine
end

