-- ==== Sys2Proof/Laws/Memory.lean ====
section
/-! SUPPORT. Reading and writing memory, its canonical form, and the set of stored words. -/

namespace Sys2Proof.Machine

/-- A read after a write of one byte. -/
theorem Memory.read_write (m : Memory) (a b : Nat) (v : Byte) (h : (m.map Prod.fst).Pairwise (· < ·)) :
    Memory.read (Memory.write m a v) b = if b = a then some v else Memory.read m b := by
  induction m with
  | nil => simp [Memory.write, Memory.read]
  | cons c m ih =>
    obtain ⟨x, c⟩ := c
    rw [List.map_cons, List.pairwise_cons] at h
    simp only [Memory.write]
    split
    · simp only [Memory.read]
    · split
      · subst_vars; simp only [Memory.read]; split <;> simp_all
      · simp only [Memory.read, ih h.2]
        by_cases hb : b = x
        · subst hb; simp [show b ≠ a by omega]
        · simp [hb]

/-- The addresses a write lists: the old ones and the written one. -/
theorem Memory.mem_write (m : Memory) (a x : Nat) (v : Byte) :
    x ∈ (Memory.write m a v).map Prod.fst ↔ x = a ∨ x ∈ m.map Prod.fst := by
  induction m with
  | nil => simp [Memory.write]
  | cons c m ih =>
    obtain ⟨y, c⟩ := c
    simp only [Memory.write]
    split
    · simp
    · split
      · subst_vars; simp
      · simp only [List.map_cons, List.mem_cons, ih]; tauto

/-- A write keeps the addresses strictly rising. -/
theorem Memory.write_rising (m : Memory) (a : Nat) (v : Byte) (h : (m.map Prod.fst).Pairwise (· < ·)) :
    ((Memory.write m a v).map Prod.fst).Pairwise (· < ·) := by
  induction m with
  | nil => simp [Memory.write]
  | cons c m ih =>
    obtain ⟨y, c⟩ := c
    have h' := h
    rw [List.map_cons, List.pairwise_cons] at h
    simp only [Memory.write]
    split
    · next hlt =>
      rw [List.map_cons, List.pairwise_cons]
      refine ⟨fun x hx => ?_, h'⟩
      simp only [List.map_cons, List.mem_cons] at hx
      rcases hx with rfl | hx
      · exact hlt
      · exact Nat.lt_trans hlt (h.1 x hx)
    · split
      · next heq => subst heq; exact h'
      · next h1 h2 =>
        rw [List.map_cons, List.pairwise_cons]
        refine ⟨fun x hx => ?_, ih h.2⟩
        rcases (Memory.mem_write m a x v).1 hx with rfl | hx
        · show y < x; omega
        · exact h.1 x hx

/-- A write below 2^32 keeps the canonical form. -/
theorem Memory.write_wf (m : Memory) (a : Nat) (v : Byte) (h : m.wf) (ha : a < 2 ^ 32) : (m.write a v).wf := by
  refine ⟨Memory.write_rising m a v h.1, fun x hx => ?_⟩
  rcases (Memory.mem_write m a x v).1 hx with rfl | hx
  · exact ha
  · exact h.2 x hx

/-- A write of `n` bytes that stays below 2^32 keeps the canonical form. -/
theorem Memory.writeLE_wf (n : Nat) (m : Memory) (a : Nat) (v : BitVec (8 * n)) (h : m.wf) (ha : a + n ≤ 2 ^ 32) :
    (m.writeLE a n v).wf := by
  induction n generalizing m a with
  | zero => exact h
  | succ n ih => exact ih _ _ _ (Memory.write_wf m a _ h (by omega)) (by omega)

/-- A write of `n` bytes leaves every byte outside them. -/
theorem Memory.read_writeLE_other (n : Nat) (m : Memory) (a b : Nat) (v : BitVec (8 * n))
    (h : (m.map Prod.fst).Pairwise (· < ·)) (hb : b < a ∨ a + n ≤ b) :
    Memory.read (m.writeLE a n v) b = Memory.read m b := by
  induction n generalizing m a with
  | zero => rfl
  | succ n ih =>
    rw [Memory.writeLE, ih _ _ _ (Memory.write_rising m a _ h) (by omega), Memory.read_write m a b _ h]
    simp [show b ≠ a by omega]

/-- Byte `k` of a write of `n` bytes is bits `8k + 7 : 8k` of the value (R61). -/
theorem Memory.read_writeLE (n : Nat) (m : Memory) (a k : Nat) (v : BitVec (8 * n))
    (h : (m.map Prod.fst).Pairwise (· < ·)) (hk : k < n) :
    Memory.read (m.writeLE a n v) (a + k) = some (v.extractLsb' (8 * k) 8) := by
  induction n generalizing m a k with
  | zero => omega
  | succ n ih =>
    rw [Memory.writeLE]
    cases k with
    | zero =>
      simp only [Nat.add_zero]
      rw [Memory.read_writeLE_other n _ _ _ _ (Memory.write_rising m a _ h) (by omega),
        Memory.read_write m a a _ h]
      simp only [if_true]
      congr 1
      apply BitVec.eq_of_getLsbD_eq
      intro j hj
      simp [hj]
    | succ k =>
      rw [show a + (k + 1) = a + 1 + k by omega, ih _ _ _ _ (Memory.write_rising m a _ h) (by omega)]
      congr 1
      apply BitVec.eq_of_getLsbD_eq
      intro j hj
      simp only [BitVec.getLsbD_setWidth, BitVec.getLsbD_extractLsb', BitVec.getLsbD_ushiftRight]
      have h1 : 8 * k + j < 8 * n := by omega
      simp only [hj, h1, decide_true, Bool.true_and]
      congr 1; omega

/-- Reading back the `n` bytes just written gives the value. -/
theorem Memory.readLE_writeLE (n : Nat) (m : Memory) (a : Nat) (v : BitVec (8 * n))
    (h : (m.map Prod.fst).Pairwise (· < ·)) : Memory.readLE (m.writeLE a n v) a n = some v := by
  induction n generalizing m a with
  | zero => simp [Memory.readLE]; exact (BitVec.eq_nil v).symm
  | succ n ih =>
    have h0 := Memory.read_writeLE (n + 1) m a 0 v h (by omega)
    rw [Memory.readLE]
    simp only [Nat.add_zero] at h0
    rw [h0, Memory.writeLE, ih _ _ _ (Memory.write_rising m a _ h)]
    simp only [Option.some.injEq]
    apply BitVec.eq_of_getLsbD_eq
    intro j hj
    simp only [BitVec.getLsbD_append, BitVec.getLsbD_setWidth, BitVec.getLsbD_extractLsb',
      BitVec.getLsbD_ushiftRight]
    by_cases h8 : j < 8
    · simp [h8]
    · have : j - 8 < 8 * n := by omega
      simp only [h8, decide_false, this, decide_true, Bool.true_and]
      show v.getLsbD (8 + (j - 8)) = _
      congr 1; omega

/-- What `MemMap` holds at each byte of an access is listed by `regionsAt`. -/
theorem regionAt_mem_regionsAt (map : List Region) (n a k : Nat) (hk : k < n) :
    regionAt map (a + k) ∈ regionsAt map a n := by
  induction n generalizing a k with
  | zero => omega
  | succ n ih =>
    cases k with
    | zero => exact List.mem_cons_self
    | succ k =>
      refine List.mem_cons_of_mem _ ?_
      rw [show a + (k + 1) = a + 1 + k by omega]
      exact ih (a + 1) k (by omega)

/-- What the set of stored words holds after an insertion. -/
theorem mem_insertRising (l : List Nat) (a x : Nat) : x ∈ insertRising l a ↔ x = a ∨ x ∈ l := by
  induction l with
  | nil => simp [insertRising]
  | cons y l ih =>
    simp only [insertRising]
    split
    · simp
    · split
      · subst_vars; simp
      · simp only [List.mem_cons, ih]; tauto

/-- An insertion keeps the list strictly rising. -/
theorem insertRising_rising (l : List Nat) (a : Nat) (h : l.Pairwise (· < ·)) :
    (insertRising l a).Pairwise (· < ·) := by
  induction l with
  | nil => simp [insertRising]
  | cons y l ih =>
    have h' := h
    rw [List.pairwise_cons] at h
    simp only [insertRising]
    split
    · next hlt =>
      refine List.pairwise_cons.2 ⟨fun x hx => ?_, h'⟩
      rcases List.mem_cons.1 hx with rfl | hx
      · exact hlt
      · exact Nat.lt_trans hlt (h.1 x hx)
    · split
      · exact h'
      · refine List.pairwise_cons.2 ⟨fun x hx => ?_, ih h.2⟩
        rcases (mem_insertRising l a x).1 hx with rfl | hx
        · omega
        · exact h.1 x hx

end Sys2Proof.Machine
end

