-- ==== Sys2Proof/Laws/State.lean ====
section
/-! SUPPORT. One lemma for each field of State and each update of it. -/

namespace Sys2Proof.Machine

section
variable (s : State)

/-! ## A register write changes `gpr` only -/

@[simp] theorem State.writeReg_pc (r : Reg) (v : Word) : (s.writeReg r v).pc = s.pc := by
  unfold State.writeReg; split <;> rfl

@[simp] theorem State.writeReg_crmd (r : Reg) (v : Word) : (s.writeReg r v).crmd = s.crmd := by
  unfold State.writeReg; split <;> rfl

@[simp] theorem State.writeReg_prmd (r : Reg) (v : Word) : (s.writeReg r v).prmd = s.prmd := by
  unfold State.writeReg; split <;> rfl

@[simp] theorem State.writeReg_euen (r : Reg) (v : Word) : (s.writeReg r v).euen = s.euen := by
  unfold State.writeReg; split <;> rfl

@[simp] theorem State.writeReg_ecfg (r : Reg) (v : Word) : (s.writeReg r v).ecfg = s.ecfg := by
  unfold State.writeReg; split <;> rfl

@[simp] theorem State.writeReg_estat (r : Reg) (v : Word) : (s.writeReg r v).estat = s.estat := by
  unfold State.writeReg; split <;> rfl

@[simp] theorem State.writeReg_era (r : Reg) (v : Word) : (s.writeReg r v).era = s.era := by
  unfold State.writeReg; split <;> rfl

@[simp] theorem State.writeReg_badv (r : Reg) (v : Word) : (s.writeReg r v).badv = s.badv := by
  unfold State.writeReg; split <;> rfl

@[simp] theorem State.writeReg_eentry (r : Reg) (v : Word) : (s.writeReg r v).eentry = s.eentry := by
  unfold State.writeReg; split <;> rfl

@[simp] theorem State.writeReg_timer (r : Reg) (v : Word) : (s.writeReg r v).timer = s.timer := by
  unfold State.writeReg; split <;> rfl

@[simp] theorem State.writeReg_llbctl (r : Reg) (v : Word) : (s.writeReg r v).llbctl = s.llbctl := by
  unfold State.writeReg; split <;> rfl

@[simp] theorem State.writeReg_tlbrentry (r : Reg) (v : Word) : (s.writeReg r v).tlbrentry = s.tlbrentry := by
  unfold State.writeReg; split <;> rfl

@[simp] theorem State.writeReg_dmw (r : Reg) (v : Word) : (s.writeReg r v).dmw = s.dmw := by
  unfold State.writeReg; split <;> rfl

@[simp] theorem State.writeReg_save (r : Reg) (v : Word) : (s.writeReg r v).save = s.save := by
  unfold State.writeReg; split <;> rfl

@[simp] theorem State.writeReg_lines (r : Reg) (v : Word) : (s.writeReg r v).lines = s.lines := by
  unfold State.writeReg; split <;> rfl

@[simp] theorem State.writeReg_memMap (r : Reg) (v : Word) : (s.writeReg r v).memMap = s.memMap := by
  unfold State.writeReg; split <;> rfl

@[simp] theorem State.writeReg_mem (r : Reg) (v : Word) : (s.writeReg r v).mem = s.mem := by
  unfold State.writeReg; split <;> rfl

@[simp] theorem State.writeReg_stored (r : Reg) (v : Word) : (s.writeReg r v).stored = s.stored := by
  unfold State.writeReg; split <;> rfl

@[simp] theorem State.writeReg_schedule (r : Reg) (v : Word) : (s.writeReg r v).schedule = s.schedule := by
  unfold State.writeReg; split <;> rfl

@[simp] theorem State.writeReg_draws (r : Reg) (v : Word) : (s.writeReg r v).draws = s.draws := by
  unfold State.writeReg; split <;> rfl

/-! ## Setting and advancing the pc -/

@[simp] theorem State.setPc_gpr (t : Word) : (s.setPc t).gpr = s.gpr := rfl

@[simp] theorem State.advance_gpr : s.advance.gpr = s.gpr := rfl

@[simp] theorem State.setPc_pc (t : Word) : (s.setPc t).pc = t := rfl

@[simp] theorem State.advance_pc : s.advance.pc = s.pc + 4#32 := rfl

@[simp] theorem State.setPc_crmd (t : Word) : (s.setPc t).crmd = s.crmd := rfl

@[simp] theorem State.advance_crmd : s.advance.crmd = s.crmd := rfl

@[simp] theorem State.setPc_prmd (t : Word) : (s.setPc t).prmd = s.prmd := rfl

@[simp] theorem State.advance_prmd : s.advance.prmd = s.prmd := rfl

@[simp] theorem State.setPc_euen (t : Word) : (s.setPc t).euen = s.euen := rfl

@[simp] theorem State.advance_euen : s.advance.euen = s.euen := rfl

@[simp] theorem State.setPc_ecfg (t : Word) : (s.setPc t).ecfg = s.ecfg := rfl

@[simp] theorem State.advance_ecfg : s.advance.ecfg = s.ecfg := rfl

@[simp] theorem State.setPc_estat (t : Word) : (s.setPc t).estat = s.estat := rfl

@[simp] theorem State.advance_estat : s.advance.estat = s.estat := rfl

@[simp] theorem State.setPc_era (t : Word) : (s.setPc t).era = s.era := rfl

@[simp] theorem State.advance_era : s.advance.era = s.era := rfl

@[simp] theorem State.setPc_badv (t : Word) : (s.setPc t).badv = s.badv := rfl

@[simp] theorem State.advance_badv : s.advance.badv = s.badv := rfl

@[simp] theorem State.setPc_eentry (t : Word) : (s.setPc t).eentry = s.eentry := rfl

@[simp] theorem State.advance_eentry : s.advance.eentry = s.eentry := rfl

@[simp] theorem State.setPc_timer (t : Word) : (s.setPc t).timer = s.timer := rfl

@[simp] theorem State.advance_timer : s.advance.timer = s.timer := rfl

@[simp] theorem State.setPc_llbctl (t : Word) : (s.setPc t).llbctl = s.llbctl := rfl

@[simp] theorem State.advance_llbctl : s.advance.llbctl = s.llbctl := rfl

@[simp] theorem State.setPc_tlbrentry (t : Word) : (s.setPc t).tlbrentry = s.tlbrentry := rfl

@[simp] theorem State.advance_tlbrentry : s.advance.tlbrentry = s.tlbrentry := rfl

@[simp] theorem State.setPc_dmw (t : Word) : (s.setPc t).dmw = s.dmw := rfl

@[simp] theorem State.advance_dmw : s.advance.dmw = s.dmw := rfl

@[simp] theorem State.setPc_save (t : Word) : (s.setPc t).save = s.save := rfl

@[simp] theorem State.advance_save : s.advance.save = s.save := rfl

@[simp] theorem State.setPc_lines (t : Word) : (s.setPc t).lines = s.lines := rfl

@[simp] theorem State.advance_lines : s.advance.lines = s.lines := rfl

@[simp] theorem State.setPc_memMap (t : Word) : (s.setPc t).memMap = s.memMap := rfl

@[simp] theorem State.advance_memMap : s.advance.memMap = s.memMap := rfl

@[simp] theorem State.setPc_mem (t : Word) : (s.setPc t).mem = s.mem := rfl

@[simp] theorem State.advance_mem : s.advance.mem = s.mem := rfl

@[simp] theorem State.setPc_stored (t : Word) : (s.setPc t).stored = s.stored := rfl

@[simp] theorem State.advance_stored : s.advance.stored = s.stored := rfl

@[simp] theorem State.setPc_schedule (t : Word) : (s.setPc t).schedule = s.schedule := rfl

@[simp] theorem State.advance_schedule : s.advance.schedule = s.schedule := rfl

@[simp] theorem State.setPc_draws (t : Word) : (s.setPc t).draws = s.draws := rfl

@[simp] theorem State.advance_draws : s.advance.draws = s.draws := rfl

/-! ## Taking an exception (R160) -/

@[simp] theorem State.trap_gpr (e : Exception) (epc badv : Word) :
    (s.trap e epc badv).gpr = s.gpr := rfl

@[simp] theorem State.trap_pc (e : Exception) (epc badv : Word) :
    (s.trap e epc badv).pc = s.entry e := rfl

@[simp] theorem State.trap_crmd (e : Exception) (epc badv : Word) :
    (s.trap e epc badv).crmd = enteredCrmd e s.crmd := rfl

@[simp] theorem State.trap_prmd (e : Exception) (epc badv : Word) :
    (s.trap e epc badv).prmd = { pplv := s.crmd.plv, pie := s.crmd.ie } := rfl

@[simp] theorem State.trap_euen (e : Exception) (epc badv : Word) :
    (s.trap e epc badv).euen = s.euen := rfl

@[simp] theorem State.trap_ecfg (e : Exception) (epc badv : Word) :
    (s.trap e epc badv).ecfg = s.ecfg := rfl

@[simp] theorem State.trap_estat (e : Exception) (epc badv : Word) :
    (s.trap e epc badv).estat = { s.estat with ecode := e.ecode, esubcode := e.esubcode } := rfl

@[simp] theorem State.trap_era (e : Exception) (epc badv : Word) :
    (s.trap e epc badv).era = epc := rfl

@[simp] theorem State.trap_badv (e : Exception) (epc badv : Word) :
    (s.trap e epc badv).badv = if e.recordsBadv then badv else s.badv := rfl

@[simp] theorem State.trap_eentry (e : Exception) (epc badv : Word) :
    (s.trap e epc badv).eentry = s.eentry := rfl

@[simp] theorem State.trap_timer (e : Exception) (epc badv : Word) :
    (s.trap e epc badv).timer = s.timer := rfl

@[simp] theorem State.trap_llbctl (e : Exception) (epc badv : Word) :
    (s.trap e epc badv).llbctl = s.llbctl := rfl

@[simp] theorem State.trap_tlbrentry (e : Exception) (epc badv : Word) :
    (s.trap e epc badv).tlbrentry = s.tlbrentry := rfl

@[simp] theorem State.trap_dmw (e : Exception) (epc badv : Word) :
    (s.trap e epc badv).dmw = s.dmw := rfl

@[simp] theorem State.trap_save (e : Exception) (epc badv : Word) :
    (s.trap e epc badv).save = s.save := rfl

@[simp] theorem State.trap_lines (e : Exception) (epc badv : Word) :
    (s.trap e epc badv).lines = s.lines := rfl

@[simp] theorem State.trap_memMap (e : Exception) (epc badv : Word) :
    (s.trap e epc badv).memMap = s.memMap := rfl

@[simp] theorem State.trap_mem (e : Exception) (epc badv : Word) :
    (s.trap e epc badv).mem = s.mem := rfl

@[simp] theorem State.trap_stored (e : Exception) (epc badv : Word) :
    (s.trap e epc badv).stored = s.stored := rfl

@[simp] theorem State.trap_schedule (e : Exception) (epc badv : Word) :
    (s.trap e epc badv).schedule = s.schedule := rfl

@[simp] theorem State.trap_draws (e : Exception) (epc badv : Word) :
    (s.trap e epc badv).draws = s.draws := rfl

/-! ## The beginning of a core step -/

@[simp] theorem State.arrive_gpr : s.arrive.gpr = s.gpr := rfl

@[simp] theorem State.arrive_pc : s.arrive.pc = s.pc := rfl

@[simp] theorem State.arrive_crmd : s.arrive.crmd = s.crmd := rfl

@[simp] theorem State.arrive_prmd : s.arrive.prmd = s.prmd := rfl

@[simp] theorem State.arrive_euen : s.arrive.euen = s.euen := rfl

@[simp] theorem State.arrive_ecfg : s.arrive.ecfg = s.ecfg := rfl

@[simp] theorem State.arrive_estat : s.arrive.estat = s.estat := rfl

@[simp] theorem State.arrive_era : s.arrive.era = s.era := rfl

@[simp] theorem State.arrive_badv : s.arrive.badv = s.badv := rfl

@[simp] theorem State.arrive_eentry : s.arrive.eentry = s.eentry := rfl

@[simp] theorem State.arrive_timer : s.arrive.timer = s.timer.ticks s.nextInput.ticks := rfl

@[simp] theorem State.arrive_llbctl : s.arrive.llbctl = s.llbctl := rfl

@[simp] theorem State.arrive_tlbrentry : s.arrive.tlbrentry = s.tlbrentry := rfl

@[simp] theorem State.arrive_dmw : s.arrive.dmw = s.dmw := rfl

@[simp] theorem State.arrive_save : s.arrive.save = s.save := rfl

@[simp] theorem State.arrive_lines : s.arrive.lines = s.nextInput.lines := rfl

@[simp] theorem State.arrive_memMap : s.arrive.memMap = s.memMap := rfl

@[simp] theorem State.arrive_mem : s.arrive.mem = s.mem := rfl

@[simp] theorem State.arrive_stored : s.arrive.stored = s.stored := rfl

@[simp] theorem State.arrive_schedule : s.arrive.schedule = s.schedule.tail := rfl

@[simp] theorem State.arrive_draws : s.arrive.draws = s.draws + 1 := rfl

end

end Sys2Proof.Machine
end

