-- ==== Sys2Proof/Laws/Ops.lean ====
section
/-! SUPPORT. What each shared operation can do, said once: registers, the ends of an instruction, memory accesses, the
return from an exception. -/

namespace Sys2Proof.Machine

/-! ## Registers (R10) -/

@[simp] theorem State.readReg_zero (s : State) : s.readReg 0#5 = 0#32 := by simp [State.readReg]

theorem State.readReg_congr {s t : State} (h : t.gpr = s.gpr) (r : Reg) : t.readReg r = s.readReg r := by
  simp [State.readReg, h]

/-- A read after a write: the written register holds the value unless it is `r0`. -/
theorem State.readReg_writeReg (s : State) (rd r : Reg) (v : Word) :
    (s.writeReg rd v).readReg r = if r = rd ∧ rd ≠ 0#5 then v else s.readReg r := by
  unfold State.writeReg
  by_cases hd : rd = 0#5
  · simp [hd]
  · by_cases hr : r = 0#5
    · subst hr; simp [Ne.symm hd]
    · by_cases he : r = rd
      · subst he; simp [hd, State.readReg]
      · have : r.toNat - 1 ≠ rd.toNat - 1 := by
          have h1 : r.toNat ≠ rd.toNat := fun h => he (BitVec.eq_of_toNat_eq h)
          have h2 : r.toNat ≠ 0 := fun h => hr (BitVec.eq_of_toNat_eq h)
          have h3 : rd.toNat ≠ 0 := fun h => hd (BitVec.eq_of_toNat_eq h)
          omega
        simp only [hd, hr, he, State.readReg, if_false, false_and]
        rw [Vector.getElem_set_ne]
        exact Ne.symm this

@[simp] theorem State.readReg_setPc (s : State) (t : Word) (r : Reg) : (s.setPc t).readReg r = s.readReg r := rfl

@[simp] theorem State.readReg_advance (s : State) (r : Reg) : s.advance.readReg r = s.readReg r := rfl

@[simp] theorem State.readReg_trap (s : State) (e : Exception) (epc badv : Word) (r : Reg) :
    (s.trap e epc badv).readReg r = s.readReg r := rfl

@[simp] theorem State.readReg_arrive (s : State) (r : Reg) : s.arrive.readReg r = s.readReg r := rfl

/-! ## The ends of an instruction -/

theorem Result.andThen_ok {α β : Type} {r : Result α} {k : α → Result β} {b : β} (h : r.andThen k = .ok b) :
    ∃ a, r = .ok a ∧ k a = .ok b := by
  cases r with
  | ok a => exact ⟨a, rfl, h⟩
  | raise => cases h
  | fault => cases h
  | refused => cases h

theorem Result.andThen_raise {α β : Type} {r : Result α} {k : α → Result β} {e : Exception} {b : Word}
    (h : r.andThen k = .raise e b) : r = .raise e b ∨ ∃ a, r = .ok a ∧ k a = .raise e b := by
  cases r with
  | ok a => exact .inr ⟨a, rfl, h⟩
  | raise => exact .inl (by simpa [Result.andThen] using h)
  | fault => cases h
  | refused => cases h

/-- A part of an instruction that leads to a next state either gave a value or raised an exception. -/
theorem Result.finish_next {α : Type} {r : Result α} {s t : State} {k : α → Host.Outcome State Fault Refusal}
    (h : r.finish s k = .next t) :
    (∃ a, r = .ok a ∧ k a = .next t) ∨ ∃ e b, r = .raise e b ∧ t = s.trap e s.pc b := by
  cases r with
  | ok a => exact .inl ⟨a, rfl, h⟩
  | raise e b =>
    refine .inr ⟨e, b, rfl, ?_⟩
    simpa [Result.finish, State.raise] using h.symm
  | fault => cases h
  | refused => cases h

/-- A privileged instruction that leads to a next state ran at PLV0 or raised IPE (R105). -/
theorem State.privileged_next {s t : State} {k : Host.Outcome State Fault Refusal} (h : s.privileged k = .next t) :
    (s.crmd.plv = 0#2 ∧ k = .next t) ∨ (s.crmd.plv ≠ 0#2 ∧ t = s.trap .ipe s.pc 0#32) := by
  unfold State.privileged at h
  split at h
  · next hp => exact .inl ⟨hp, h⟩
  · next hp => exact .inr ⟨hp, by simpa [State.raise] using h.symm⟩

/-! ## Memory accesses (R63, R64) -/

theorem checkAlign_ok {kind : AccessKind} {addr : Word} {n : Nat} {u : Unit} (h : checkAlign kind addr n = .ok u) :
    addr.toNat % n = 0 := by
  unfold checkAlign at h
  split at h
  · assumption
  · cases h

theorem checkAlign_raise {kind : AccessKind} {addr : Word} {n : Nat} {e : Exception} {b : Word}
    (h : checkAlign kind addr n = .raise e b) : addr.toNat % n ≠ 0 ∧ e = misaligned kind ∧ b = addr := by
  unfold checkAlign at h
  split at h
  · cases h
  · next ha =>
    injection h with h1 h2
    exact ⟨ha, h1.symm, h2.symm⟩

theorem State.translate_ok {s : State} {kind : AccessKind} {addr : Word} {pa : Nat} (h : s.translate kind addr = .ok pa) :
    s.crmd.da = true ∧ s.crmd.pg = false ∧ pa = addr.toNat := by
  unfold State.translate at h
  split at h
  · next hm =>
    injection h with h
    simp only [Bool.and_eq_true, Bool.not_eq_true'] at hm
    exact ⟨hm.1, hm.2, h.symm⟩
  · cases h

theorem State.translate_not_raise {s : State} {kind : AccessKind} {addr : Word} {e : Exception} {b : Word} :
    s.translate kind addr ≠ .raise e b := by
  unfold State.translate
  split <;> simp

theorem State.checkMap_not_raise {s : State} {kind : AccessKind} {addr : Word} {pa n : Nat} {e : Exception} {b : Word} :
    s.checkMap kind addr pa n ≠ .raise e b := by
  unfold State.checkMap
  simp only
  split
  · simp
  · split
    · simp
    · split <;> simp

/-- An access the map allows is in RAM or ROM, and in RAM if it is a store. -/
theorem State.checkMap_ok {s : State} {kind : AccessKind} {addr : Word} {pa n k : Nat}
    (h : s.checkMap kind addr pa n = .ok ()) (hk : k < n) :
    regionAt s.memMap (pa + k) = some .ram ∨ (kind ≠ .store ∧ regionAt s.memMap (pa + k) = some .rom) := by
  have hm := regionAt_mem_regionsAt s.memMap n pa k hk
  unfold State.checkMap at h
  simp only at h
  split at h
  · cases h
  · next h1 =>
    split at h
    · cases h
    · next h2 =>
      split at h
      · cases h
      · next h3 =>
        generalize regionAt s.memMap (pa + k) = r at hm
        rcases r with _ | _ | _ | _
        · exact absurd hm (by simpa using h1)
        · exact .inl rfl
        · refine .inr ⟨fun hs => ?_, rfl⟩
          subst hs
          exact absurd hm (by simpa using h3)
        · exact absurd hm (by simpa using h2)

/-- A read that gives a value was aligned, in direct mode, in memory, and the value is what the bytes hold. -/
theorem State.memRead_ok {s : State} {kind : AccessKind} {addr : Word} {n : Nat} {v : BitVec (8 * n)}
    (h : s.memRead kind addr n = .ok v) :
    addr.toNat % n = 0 ∧ s.crmd.da = true ∧ s.crmd.pg = false ∧ s.checkMap kind addr addr.toNat n = .ok () ∧
      Memory.readLE s.mem addr.toNat n = some v := by
  obtain ⟨_, ha, h⟩ := Result.andThen_ok h
  obtain ⟨pa, hp, h⟩ := Result.andThen_ok h
  obtain ⟨u, hm, h⟩ := Result.andThen_ok h
  obtain ⟨h1, h2, rfl⟩ := State.translate_ok hp
  refine ⟨checkAlign_ok ha, h1, h2, hm, ?_⟩
  split at h
  · next w hw => injection h with h; rw [hw, h]
  · cases h

/-- A read raises an exception only for a misaligned address. -/
theorem State.memRead_raise {s : State} {kind : AccessKind} {addr : Word} {n : Nat} {e : Exception} {b : Word}
    (h : s.memRead kind addr n = .raise e b) : addr.toNat % n ≠ 0 ∧ e = misaligned kind ∧ b = addr := by
  rcases Result.andThen_raise h with h | ⟨_, -, h⟩
  · exact checkAlign_raise h
  · rcases Result.andThen_raise h with h | ⟨_, -, h⟩
    · exact absurd h State.translate_not_raise
    · rcases Result.andThen_raise h with h | ⟨_, -, h⟩
      · exact absurd h State.checkMap_not_raise
      · split at h <;> cases h

/-- A write that is done was aligned, in direct mode, in memory; it changes the bytes and the stored words only. -/
theorem State.memWrite_ok {s t : State} {addr : Word} {n : Nat} {v : BitVec (8 * n)} (h : s.memWrite addr n v = .ok t) :
    addr.toNat % n = 0 ∧ s.crmd.da = true ∧ s.crmd.pg = false ∧ s.checkMap .store addr addr.toNat n = .ok () ∧
      t = { s with
        mem := Memory.writeLE s.mem addr.toNat n v
        stored := insertRising s.stored (wordAddr addr.toNat) } := by
  obtain ⟨_, ha, h⟩ := Result.andThen_ok h
  obtain ⟨pa, hp, h⟩ := Result.andThen_ok h
  obtain ⟨u, hm, h⟩ := Result.andThen_ok h
  obtain ⟨h1, h2, rfl⟩ := State.translate_ok hp
  refine ⟨checkAlign_ok ha, h1, h2, hm, ?_⟩
  injection h with h
  exact h.symm

/-- A write raises an exception only for a misaligned address. -/
theorem State.memWrite_raise {s : State} {addr : Word} {n : Nat} {v : BitVec (8 * n)} {e : Exception} {b : Word}
    (h : s.memWrite addr n v = .raise e b) : addr.toNat % n ≠ 0 ∧ e = .ale ∧ b = addr := by
  rcases Result.andThen_raise h with h | ⟨_, -, h⟩
  · exact checkAlign_raise h
  · rcases Result.andThen_raise h with h | ⟨_, -, h⟩
    · exact absurd h State.translate_not_raise
    · rcases Result.andThen_raise h with h | ⟨_, -, h⟩
      · exact absurd h State.checkMap_not_raise
      · cases h

/-- The end of a fetch: a value was read at an aligned pc and no store wrote it, or the pc is misaligned. -/
theorem State.fetch_ok {s : State} {w : Word} (h : s.fetch = .ok w) :
    s.memRead .fetch s.pc 4 = .ok w ∧ s.stored.contains s.pc.toNat = false := by
  obtain ⟨v, hv, h⟩ := Result.andThen_ok h
  split at h
  · cases h
  · next hs =>
    injection h with h
    subst h
    exact ⟨hv, by simpa using hs⟩

theorem State.fetch_raise {s : State} {e : Exception} {b : Word} (h : s.fetch = .raise e b) :
    s.pc.toNat % 4 ≠ 0 ∧ e = .adef ∧ b = s.pc := by
  rcases Result.andThen_raise h with h | ⟨_, -, h⟩
  · exact State.memRead_raise h
  · split at h <;> cases h

/-! ## The return from an exception (R110) -/

theorem State.exceptionReturn_ok {s t : State} (h : s.exceptionReturn = .ok t) :
    plvLegal s.prmd.pplv = true ∧
      t = { s with crmd := returnedCrmd s, llbctl := returnLlbctl s.llbctl, pc := s.era } := by
  unfold State.exceptionReturn at h
  split at h
  · next hp => injection h with h; exact ⟨hp, h.symm⟩
  · cases h

theorem State.exceptionReturn_not_raise {s : State} {e : Exception} {b : Word} : s.exceptionReturn ≠ .raise e b := by
  unfold State.exceptionReturn
  split <;> simp

theorem plvLegal_iff (p : BitVec 2) : plvLegal p = true ↔ p = 0#2 ∨ p = 3#2 := by
  revert p; decide

end Sys2Proof.Machine
end

