-- ==== Sys2Proof/Laws/Csr.lean ====
section
/-! SUPPORT. What a CSR write can do (R101). -/

namespace Sys2Proof.Machine

/-- A CSR write that is done changes the one CSR it names; the ones that can be refused passed their check. -/
theorem csrWrite_ok {c : Csr} {v : Word} {s t : State} (h : csrWrite c v s = .ok t) :
    match c with
    | .crmd => t = { s with crmd := Crmd.ofWord v } ∧ plvLegal (Crmd.ofWord v).plv = true ∧
        ((Crmd.ofWord v).da && !(Crmd.ofWord v).pg) = true ∧ accessTypeOk (Crmd.ofWord v).datf = true ∧
        accessTypeOk (Crmd.ofWord v).datm = true
    | .prmd => t = { s with prmd := Prmd.ofWord v }
    | .euen => t = { s with euen := { fpuen := bit v 0 } }
    | .ecfg => t = { s with ecfg := Ecfg.ofWord v }
    | .estat => t = { s with estat := { s.estat with swi := field v 0 2 } }
    | .era => t = { s with era := v }
    | .badv => t = { s with badv := v }
    | .eentry => t = { s with eentry := field v 6 26 }
    | .tcfg => t = { s with timer := s.timer.writeTcfg v } ∧
        ((s.timer.writeTcfg v).en && (s.timer.writeTcfg v).initVal == 0#30) = false
    | .tval => t = s
    | .ticlr => t = { s with timer := { s.timer with int := s.timer.int && !bit v 0 } }
    | .llbctl => t = { s with llbctl := s.llbctl.write v }
    | .tlbrentry => t = { s with tlbrentry := field v 6 26 }
    | .dmw i => t = { s with dmw := s.dmw.set i (Dmw.ofWord v) } ∧ accessTypeOk (Dmw.ofWord v).mat = true
    | .save i => t = { s with save := s.save.set i v } := by
  cases c with
  | crmd =>
    simp only [csrWrite, writeCrmd] at h
    split at h
    · cases h
    · split at h
      · cases h
      · split at h
        · cases h
        · split at h
          · cases h
          · injection h with h
            exact ⟨h.symm, by simp_all, by simp_all, by simp_all, by simp_all⟩
  | tcfg =>
    simp only [csrWrite, writeTimer] at h
    split at h
    · cases h
    · next hp => injection h with h; exact ⟨h.symm, by simpa using hp⟩
  | dmw i =>
    simp only [csrWrite, writeDmw] at h
    split at h
    · next hp => injection h with h; exact ⟨h.symm, hp⟩
    · cases h
  | prmd => injection h with h; exact h.symm
  | euen => injection h with h; exact h.symm
  | ecfg => injection h with h; exact h.symm
  | estat => injection h with h; exact h.symm
  | era => injection h with h; exact h.symm
  | badv => injection h with h; exact h.symm
  | eentry => injection h with h; exact h.symm
  | tval => injection h with h; exact h.symm
  | ticlr => injection h with h; exact h.symm
  | llbctl => injection h with h; exact h.symm
  | tlbrentry => injection h with h; exact h.symm
  | save i => injection h with h; exact h.symm

/-- What no CSR write touches: the general registers, the pc, memory and the agents beside the core. -/
theorem csrWrite_frame {c : Csr} {v : Word} {s t : State} (h : csrWrite c v s = .ok t) :
    t.gpr = s.gpr ∧ t.pc = s.pc ∧ t.mem = s.mem ∧ t.stored = s.stored ∧ t.memMap = s.memMap ∧ t.lines = s.lines ∧
      t.schedule = s.schedule ∧ t.draws = s.draws := by
  have h := csrWrite_ok h
  cases c <;> simp only at h
  case crmd => obtain ⟨rfl, -⟩ := h; simp
  case tcfg => obtain ⟨rfl, -⟩ := h; simp
  case dmw => obtain ⟨rfl, -⟩ := h; simp
  all_goals (subst h; simp)

/-- A CSR write is done or refused; it neither raises an exception nor gets stuck. -/
theorem csrWrite_ok_or_refused (c : Csr) (v : Word) (s : State) :
    (∃ t, csrWrite c v s = .ok t) ∨ ∃ r, csrWrite c v s = .refused r := by
  cases c
  case crmd =>
    simp only [csrWrite, writeCrmd]
    split
    · exact .inr ⟨_, rfl⟩
    · split
      · exact .inr ⟨_, rfl⟩
      · split
        · exact .inr ⟨_, rfl⟩
        · split
          · exact .inr ⟨_, rfl⟩
          · exact .inl ⟨_, rfl⟩
  case tcfg => simp only [csrWrite, writeTimer]; split <;> simp
  case dmw => simp only [csrWrite, writeDmw]; split <;> simp
  all_goals exact .inl ⟨_, rfl⟩

/-- What CSRXCHG writes is nothing, or a CSR write. -/
theorem csrExchange_ok {c : Csr} {v mask : Word} {s t : State} (h : csrExchange c v mask s = .ok t) :
    (mask = 0#32 ∧ t = s) ∨ (mask ≠ 0#32 ∧ csrWrite c (maskMerge (csrRead c s) v mask) s = .ok t) := by
  unfold csrExchange at h
  split at h
  · next hm => injection h with h; exact .inl ⟨hm, h.symm⟩
  · next hm => exact .inr ⟨hm, h⟩

theorem csrExchange_ok_or_refused (c : Csr) (v mask : Word) (s : State) :
    (∃ t, csrExchange c v mask s = .ok t) ∨ ∃ r, csrExchange c v mask s = .refused r := by
  unfold csrExchange
  split
  · exact .inl ⟨_, rfl⟩
  · exact csrWrite_ok_or_refused _ _ _

theorem csrOf_ok {n : CsrNumber} {c : Csr} (h : csrOf n = .ok c) : Csr.ofNumber n = some c := by
  unfold csrOf at h
  split at h
  · next d hd => injection h with h; rw [hd, h]
  · cases h

theorem csrOf_not_raise {n : CsrNumber} {e : Exception} {b : Word} : csrOf n ≠ .raise e b := by
  unfold csrOf
  split <;> simp

end Sys2Proof.Machine
end

