-- ==== Sys2Proof/Laws/PerInstr.lean ====
section
/-! SUPPORT. One lemma per constructor of Instr: the word the encoder writes from the formats of R81 lies in the row of
R84 that stands for the instruction. -/

namespace Sys2Proof.Laws.EncodesIntoRow

open Sys2Proof.Machine

/-- The encoding of a well-formed instruction matches the mask and match pair of its row. -/
def Statement (i : Instr) : Prop := i.wellFormed = true → rowHits (rowOf i) (encode i) = true

theorem csrrd (rd : Reg) (csr : CsrNumber) : Statement (.csrrd rd csr) := by
  intro _
  rw [rowHits, beq_iff_eq]
  apply BitVec.eq_of_getElem_eq
  intro j hj
  interval_cases j <;> simp [rowOf, rowCsrrd, encode, formatCsr]

theorem csrwr (rd : Reg) (csr : CsrNumber) : Statement (.csrwr rd csr) := by
  intro _
  rw [rowHits, beq_iff_eq]
  apply BitVec.eq_of_getElem_eq
  intro j hj
  interval_cases j <;> simp [rowOf, rowCsrwr, encode, formatCsr]

theorem csrxchg (rd rj : Reg) (csr : CsrNumber) : Statement (.csrxchg rd rj csr) := by
  intro _
  rw [rowHits, beq_iff_eq]
  apply BitVec.eq_of_getElem_eq
  intro j hj
  interval_cases j <;> simp [rowOf, rowCsrxchg, encode, formatCsr]

theorem ertn : Statement .ertn := fun _ => by decide

theorem ori (rd rj : Reg) (ui12 : BitVec 12) : Statement (.ori rd rj ui12) := by
  intro _
  rw [rowHits, beq_iff_eq]
  apply BitVec.eq_of_getElem_eq
  intro j hj
  interval_cases j <;> simp [rowOf, rowOri, encode, format2RI12]

theorem lu12iw (rd : Reg) (si20 : BitVec 20) : Statement (.lu12iw rd si20) := by
  intro _
  rw [rowHits, beq_iff_eq]
  apply BitVec.eq_of_getElem_eq
  intro j hj
  interval_cases j <;> simp [rowOf, rowLu12iw, encode, format1RI20]

theorem andn (rd rj rk : Reg) : Statement (.andn rd rj rk) := by
  intro _
  rw [rowHits, beq_iff_eq]
  apply BitVec.eq_of_getElem_eq
  intro j hj
  interval_cases j <;> simp [rowOf, rowAndn, encode, format3R]

theorem or (rd rj rk : Reg) : Statement (.or rd rj rk) := by
  intro _
  rw [rowHits, beq_iff_eq]
  apply BitVec.eq_of_getElem_eq
  intro j hj
  interval_cases j <;> simp [rowOf, rowOr, encode, format3R]

theorem ldw (rd rj : Reg) (si12 : BitVec 12) : Statement (.ldw rd rj si12) := by
  intro _
  rw [rowHits, beq_iff_eq]
  apply BitVec.eq_of_getElem_eq
  intro j hj
  interval_cases j <;> simp [rowOf, rowLdw, encode, format2RI12]

theorem stw (rd rj : Reg) (si12 : BitVec 12) : Statement (.stw rd rj si12) := by
  intro _
  rw [rowHits, beq_iff_eq]
  apply BitVec.eq_of_getElem_eq
  intro j hj
  interval_cases j <;> simp [rowOf, rowStw, encode, format2RI12]

theorem syscall (code : BitVec 15) : Statement (.syscall code) := by
  intro _
  rw [rowHits, beq_iff_eq]
  apply BitVec.eq_of_getElem_eq
  intro j hj
  interval_cases j <;> simp [rowOf, rowSyscall, encode, formatCode15]

theorem brk (code : BitVec 15) : Statement (.brk code) := by
  intro _
  rw [rowHits, beq_iff_eq]
  apply BitVec.eq_of_getElem_eq
  intro j hj
  interval_cases j <;> simp [rowOf, rowBreak, encode, formatCode15]

end Sys2Proof.Laws.EncodesIntoRow
end

