-- ==== Sys2Proof/Laws/Step.lean ====
section
/-! SUPPORT. What an instruction and a core step can do, said once. Every claim about all instructions or all steps is
derived from `exec_cases` and `step_cases`. -/

namespace Sys2Proof.Machine

/-- The ways an instruction can lead from `s` to `t`. -/
inductive Effect (i : Instr) (s t : State) : Prop where
  /-- It raised an exception of its own. -/
  | raised (e : Exception) (badv : Word) (h : t = s.trap e s.pc badv)
      (he : e = .ipe ∨ e = .ale ∨ e = .sys ∨ e = .brk)
  /-- It wrote one general register. -/
  | wrote (rd : Reg) (v : Word) (h : t = (s.writeReg rd v).advance)
  /-- It wrote a CSR at PLV0 and gave the old value to a general register. -/
  | wroteCsr (c : Csr) (v : Word) (rd : Reg) (u : State) (hk : s.crmd.plv = 0#2) (hc : csrWrite c v s = .ok u)
      (hi : (∃ n, i = .csrwr rd n ∧ Csr.ofNumber n = some c) ∨ ∃ rj n, i = .csrxchg rd rj n ∧ Csr.ofNumber n = some c)
      (h : t = (u.writeReg rd (csrRead c s)).advance)
  /-- It was ERTN at PLV0. -/
  | returned (hi : i = .ertn) (hk : s.crmd.plv = 0#2) (h : s.exceptionReturn = .ok t)
  /-- It stored a word. -/
  | stored (rd rj : Reg) (si12 : BitVec 12) (u : State) (hi : i = .stw rd rj si12)
      (hw : s.memWrite (s.effectiveAddr rj si12) 4 (s.readReg rd) = .ok u) (h : t = u.advance)

/-- An instruction that answers a next state did one of these. -/
theorem exec_cases {i : Instr} {s t : State} (h : exec i s = .next t) : Effect i s t := by
  cases i with
  | csrrd rd n =>
    rcases State.privileged_next h with ⟨-, h⟩ | ⟨-, h⟩
    · rcases Result.finish_next h with ⟨c, -, h⟩ | ⟨e, b, h, -⟩
      · injection h with h; exact .wrote _ _ h.symm
      · exact absurd h csrOf_not_raise
    · exact .raised _ _ h (by simp)
  | csrwr rd n =>
    rcases State.privileged_next h with ⟨hk, h⟩ | ⟨-, h⟩
    · rcases Result.finish_next h with ⟨c, hn, h⟩ | ⟨e, b, h, -⟩
      · rcases Result.finish_next h with ⟨u, hc, h⟩ | ⟨e, b, h, -⟩
        · injection h with h
          exact .wroteCsr c _ rd u hk hc (.inl ⟨n, rfl, csrOf_ok hn⟩) h.symm
        · rcases csrWrite_ok_or_refused c (s.readReg rd) s with ⟨u, hu⟩ | ⟨r, hr⟩
          · rw [hu] at h; cases h
          · rw [hr] at h; cases h
      · exact absurd h csrOf_not_raise
    · exact .raised _ _ h (by simp)
  | csrxchg rd rj n =>
    rcases State.privileged_next h with ⟨hk, h⟩ | ⟨-, h⟩
    · rcases Result.finish_next h with ⟨c, hn, h⟩ | ⟨e, b, h, -⟩
      · rcases Result.finish_next h with ⟨u, hc, h⟩ | ⟨e, b, h, -⟩
        · injection h with h
          rcases csrExchange_ok hc with ⟨-, rfl⟩ | ⟨-, hc⟩
          · exact .wrote _ _ h.symm
          · exact .wroteCsr c _ rd u hk hc (.inr ⟨rj, n, rfl, csrOf_ok hn⟩) h.symm
        · rcases csrExchange_ok_or_refused c (s.readReg rd) (s.readReg rj) s with ⟨u, hu⟩ | ⟨r, hr⟩
          · rw [hu] at h; cases h
          · rw [hr] at h; cases h
      · exact absurd h csrOf_not_raise
    · exact .raised _ _ h (by simp)
  | ertn =>
    rcases State.privileged_next h with ⟨hk, h⟩ | ⟨-, h⟩
    · rcases Result.finish_next h with ⟨u, hu, h⟩ | ⟨e, b, h, -⟩
      · injection h with h; exact .returned rfl hk (h ▸ hu)
      · exact absurd h State.exceptionReturn_not_raise
    · exact .raised _ _ h (by simp)
  | ori => injection h with h; exact .wrote _ _ h.symm
  | lu12iw => injection h with h; exact .wrote _ _ h.symm
  | andn => injection h with h; exact .wrote _ _ h.symm
  | or => injection h with h; exact .wrote _ _ h.symm
  | ldw rd rj si12 =>
    rcases Result.finish_next h with ⟨v, -, h⟩ | ⟨e, b, hr, h⟩
    · injection h with h; exact .wrote _ _ h.symm
    · obtain ⟨-, rfl, -⟩ := State.memRead_raise hr
      exact .raised _ _ h (by simp [misaligned])
  | stw rd rj si12 =>
    rcases Result.finish_next h with ⟨u, hw, h⟩ | ⟨e, b, hr, h⟩
    · injection h with h; exact .stored rd rj si12 u rfl hw h.symm
    · obtain ⟨-, rfl, -⟩ := State.memWrite_raise hr
      exact .raised _ _ h (by simp)
  | syscall => injection h with h; exact .raised _ _ h.symm (by simp)
  | brk => injection h with h; exact .raised _ _ h.symm (by simp)

/-- A core step that answers a next state took an interrupt, raised the fetch address error, or executed the instruction
of the word it fetched. -/
theorem step_cases {s t : State} (h : step s = .next t) :
    (s.takesInterrupt = true ∧ t = s.arrive.interrupt) ∨
    (s.takesInterrupt = false ∧ s.pc.toNat % 4 ≠ 0 ∧ t = s.arrive.trap .adef s.pc s.pc) ∨
    (s.takesInterrupt = false ∧ ∃ w i, s.arrive.fetch = .ok w ∧ decodeWord w = .ok i ∧ exec i s.arrive = .next t) := by
  unfold step at h
  split at h
  · next hi => injection h with h; exact .inl ⟨hi, h.symm⟩
  · next hi =>
    have hi : s.takesInterrupt = false := by simpa using hi
    rcases Result.finish_next h with ⟨w, hw, h⟩ | ⟨e, b, hr, h⟩
    · unfold execWord at h
      split at h
      · next i hd => exact .inr (.inr ⟨hi, w, i, hw, hd, h⟩)
      · simp [baseExec] at h
    · obtain ⟨ha, rfl, rfl⟩ := State.fetch_raise hr
      exact .inr (.inl ⟨hi, ha, h⟩)

end Sys2Proof.Machine
end

