-- ==== Sys2Proof/Machine/Asm.lean ====
section
/-! DEFINITION. The assembler's names and syntax (spec/30_encoding.md R86, R87, R89): destination first, registers by
their ABI names, CSRs by `CSR_` and the register's name. Nothing in the machine depends on it. -/

namespace Sys2Proof.Machine

/-- The ABI name of a general register (R87); `r21` is reserved and has only its number. -/
def regName (r : Reg) : String :=
  let n := r.toNat
  if n = 0 then "$zero"
  else if n = 1 then "$ra"
  else if n = 2 then "$tp"
  else if n = 3 then "$sp"
  else if n < 12 then "$a" ++ toString (n - 4)
  else if n < 21 then "$t" ++ toString (n - 12)
  else if n = 21 then "$r21"
  else if n = 22 then "$fp"
  else "$s" ++ toString (n - 23)

/-- The symbolic name of a CSR (R89). -/
def csrName : Csr → String
  | .crmd => "CSR_CRMD"
  | .prmd => "CSR_PRMD"
  | .euen => "CSR_EUEN"
  | .ecfg => "CSR_ECFG"
  | .estat => "CSR_ESTAT"
  | .era => "CSR_ERA"
  | .badv => "CSR_BADV"
  | .eentry => "CSR_EENTRY"
  | .tcfg => "CSR_TCFG"
  | .tval => "CSR_TVAL"
  | .ticlr => "CSR_TICLR"
  | .llbctl => "CSR_LLBCTL"
  | .tlbrentry => "CSR_TLBRENTRY"
  | .dmw i => "CSR_DMW" ++ toString i.val
  | .save i => "CSR_SAVE" ++ toString i.val

/-- The CSR operand of an instruction: its symbolic name, or its number where it names no CSR of the model. -/
def csrOperand (n : CsrNumber) : String :=
  match Csr.ofNumber n with
  | some c => csrName c
  | none => toString n.toNat

/-- The assembler text of an instruction (R86). -/
def asmText : Instr → String
  | .csrrd rd csr => "csrrd " ++ regName rd ++ ", " ++ csrOperand csr
  | .csrwr rd csr => "csrwr " ++ regName rd ++ ", " ++ csrOperand csr
  | .csrxchg rd rj csr => "csrxchg " ++ regName rd ++ ", " ++ regName rj ++ ", " ++ csrOperand csr
  | .ertn => "ertn"
  | .ori rd rj ui12 => "ori " ++ regName rd ++ ", " ++ regName rj ++ ", " ++ toString ui12.toNat
  | .lu12iw rd si20 => "lu12i.w " ++ regName rd ++ ", " ++ toString si20.toInt
  | .andn rd rj rk => "andn " ++ regName rd ++ ", " ++ regName rj ++ ", " ++ regName rk
  | .or rd rj rk => "or " ++ regName rd ++ ", " ++ regName rj ++ ", " ++ regName rk
  | .ldw rd rj si12 => "ld.w " ++ regName rd ++ ", " ++ regName rj ++ ", " ++ toString si12.toInt
  | .stw rd rj si12 => "st.w " ++ regName rd ++ ", " ++ regName rj ++ ", " ++ toString si12.toInt
  | .syscall code => "syscall " ++ toString code.toNat
  | .brk code => "break " ++ toString code.toNat

end Sys2Proof.Machine
end

