-- ==== Sys2Proof/Tests/Slice0.lean ====
section
/-! SUPPORT. The model's own tests. Every expected value is a vector of spec/95_test_vectors.md (its id stands in the
docstring) or is worked out by hand from the rule named there; none is taken from the model. Then, for every statement of
Certificates/Slice0/Obligations.lean with hypotheses, a concrete case that meets them all together. -/

namespace Sys2Proof.Tests

open Sys2Proof Sys2Proof.Machine Sys2Proof.Safety

/-! ## Helpers -/

/-- All lines low. -/
def low : Lines := { hwi := 0#8, ipi := false }

/-- An input at which a pending interrupt is accepted. -/
def accepting : StepInput := { lines := low, ticks := 0, accept := true }

/-- The reset state with inputs for the next two steps in which nothing happens. -/
def base : State := { State.reset with schedule := [StepInput.quiet low, StepInput.quiet low] }

/-- EENTRY at 0x1C000100. -/
def handler : State := { base with eentry := 0x0700004#26 }

/-- A state at another privilege level. -/
def atLevel (plv : BitVec 2) (s : State) : State := { s with crmd := { s.crmd with plv := plv } }

/-- A word put in memory. -/
def withWord (a : Nat) (w : Word) (s : State) : State := { s with mem := Memory.writeLE s.mem a 4 w }

/-- What an instruction leaves of a state, if it answers a next state. -/
def after {α : Type} (i : Instr) (s : State) (f : State → α) : Option α :=
  match exec i s with
  | .next t => some (f t)
  | .fault _ => none
  | .refused _ => none

/-- What one core step leaves of a state. -/
def stepped {α : Type} (s : State) (f : State → α) : Option α :=
  match step s with
  | .next t => some (f t)
  | .fault _ => none
  | .refused _ => none

/-- What an instruction refuses. -/
def refusal (i : Instr) (s : State) : Option Refusal :=
  match exec i s with
  | .next _ => none
  | .fault _ => none
  | .refused r => some r

/-- What exception entry writes, as a reader of the vectors sees it: PRMD, CRMD, ERA, ESTAT, BADV and the pc. -/
def entryView (t : State) : List Word :=
  [csrRead .prmd t, csrRead .crmd t, csrRead .era t, csrRead .estat t, csrRead .badv t, t.pc]

/-! ## WellFormed: R82 -/

theorem test_wellFormed_refuses_mask_register_0 : (Instr.csrxchg 12 0 0x0).wellFormed = false := by decide
theorem test_wellFormed_refuses_mask_register_1 : (Instr.csrxchg 12 1 0x0).wellFormed = false := by decide
theorem test_wellFormed_takes_mask_register_2 : (Instr.csrxchg 12 2 0x0).wellFormed = true := by decide

/-! ## Decoding: 2.1, each word also written out bit by bit from R81 -/

theorem test_decode_csrrd :
    decodeTableWord 32 0b00000100_00000000000000_00000_01100 = some (.csrrd 12 0x0) := by decide
theorem test_decode_csrrd_dmw0 :
    decodeTableWord 32 0b00000100_00000110000000_00000_01100 = some (.csrrd 12 0x180) := by decide
theorem test_decode_csrwr :
    decodeTableWord 32 0b00000100_00000001000100_00001_01100 = some (.csrwr 12 0x44) := by decide
theorem test_decode_csrxchg :
    decodeTableWord 32 0b00000100_00000000000000_01100_01100 = some (.csrxchg 12 12 0x0) := by decide
theorem test_decode_csrxchg_smallest_rj :
    decodeTableWord 32 0b00000100_00000000000000_00010_00000 = some (.csrxchg 0 2 0x0) := by decide
theorem test_decode_ertn :
    decodeTableWord 32 0b0000011001001000001110_00000_00000 = some .ertn := by decide
theorem test_decode_not_ertn : decodeTableWord 32 0x06483801 = none := by decide
theorem test_decode_zero_word : decodeTableWord 32 0x00000000 = none := by decide
theorem test_decode_ori :
    decodeTableWord 32 0b0000001110_000000000100_00000_01101 = some (.ori 13 0 0x004) := by decide
theorem test_decode_lu12iw :
    decodeTableWord 32 0b0001010_00011100000000000000_01100 = some (.lu12iw 12 0x1C000) := by decide
theorem test_decode_andn :
    decodeTableWord 32 0b00000000000101101_01101_01100_01100 = some (.andn 12 12 13) := by decide
theorem test_decode_or :
    decodeTableWord 32 0b00000000000101010_01101_01100_01100 = some (.or 12 12 13) := by decide
/-- The vector's word holds i12 = 0xFFC, which is the offset -4 it names (log entry 14). -/
theorem test_decode_ldw :
    decodeTableWord 32 0b0010100010_111111111100_01100_01101 = some (.ldw 13 12 0xFFC) := by decide
theorem test_decode_stw :
    decodeTableWord 32 0b0010100110_000000000010_01100_01100 = some (.stw 12 12 0x002) := by decide
theorem test_decode_syscall :
    decodeTableWord 32 0b00000000001010110_000000000000000 = some (.syscall 0) := by decide
theorem test_decode_break :
    decodeTableWord 32 0b00000000001010100_000000000000001 = some (.brk 1) := by decide
/-- The same words as section 2.1 writes them, the encoder's way round. -/
theorem test_encode_words :
    [Instr.csrrd 12 0x0, .csrwr 12 0x44, .csrxchg 12 12 0x0, .ertn, .ori 13 0 0x004, .lu12iw 12 0x1C000, .andn 12 12 13,
      .or 12 12 13, .ldw 13 12 0xFFC, .stw 12 12 0x002, .syscall 0, .brk 0].map encode =
    [0x0400000C, 0x0401102C, 0x0400018C, 0x06483800, 0x0380100D, 0x1438000C, 0x0016B58C, 0x0015358C, 0x28BFF18D,
      0x2980098C, 0x002B0000, 0x002A0000] := by decide
/-- R61, R80: the bytes of 0x0380100D in memory. -/
theorem test_encode_byte_order : encodeBytes (.ori 13 0 0x004) = [0x0D, 0x10, 0x80, 0x03] := by decide

/-! ## CSR instructions: 2.2 -/

/-- V1. -/
theorem test_csrrd_crmd_at_reset :
    after (.csrrd 12 0x0) State.reset (fun t => (t.readReg 12, t.pc)) = some (0x00000008, 0x1C000004) := by decide
/-- V9. -/
theorem test_csrrd_traps_at_plv3 :
    after (.csrrd 12 0x0) (atLevel 3 handler) entryView =
      some [0x3, 0x8, 0x1C000000, 0x000E0000, 0, 0x1C000100] := by decide
/-- V2. -/
theorem test_csrwr_crmd :
    after (.csrwr 12 0x0) (base.writeReg 12 0xC) (fun t => (csrRead .crmd t, t.readReg 12)) = some (0xC, 0x8) := by decide
/-- V14. -/
theorem test_csrwr_ecfg_mask :
    after (.csrwr 12 0x4) (base.writeReg 12 0xFFFFFFFF) (fun t => (csrRead .ecfg t, t.readReg 12)) =
      some (0x00001BFF, 0) := by decide
/-- V6. -/
theorem test_csrxchg_estat :
    after (.csrxchg 12 13 0x5)
      { (base.writeReg 12 0x2).writeReg 13 0x3 with estat := { swi := 3, ecode := 0xB, esubcode := 0 } }
      (fun t => (csrRead .estat t, t.readReg 12)) = some (0x000B0002, 0x000B0003) := by decide
/-- V16: the destination r0 stays 0. -/
theorem test_csrxchg_crmd_to_r0 :
    after (.csrxchg 0 13 0x0) { base.writeReg 13 0x4 with crmd := { base.crmd with ie := true } }
      (fun t => (csrRead .crmd t, t.readReg 0)) = some (0x8, 0) := by decide
/-- V7. -/
theorem test_csrwr_ticlr_clears_latch :
    after (.csrwr 13 0x44) { base.writeReg 13 0x1 with timer := { base.timer with int := true } }
      (fun t => (t.timer.int, t.readReg 13)) = some (false, 0) := by decide
/-- V17. -/
theorem test_csrwr_tcfg_starts_timer :
    after (.csrwr 12 0x41) (base.writeReg 12 0x13)
      (fun t => (t.timer.en, t.timer.periodic, t.timer.initVal, t.timer.val, t.timer.running)) =
      some (true, true, 4, 0x10, true) := by decide
/-- V18. -/
theorem test_csrwr_llbctl :
    after (.csrwr 12 0x60) { base.writeReg 12 0x6 with llbctl := { klo := false, llbit := true } }
      (fun t => (csrRead .llbctl t, t.readReg 12)) = some (0x4, 0x1) := by decide
/-- V20. -/
theorem test_csrwr_dmw0 :
    after (.csrwr 12 0x180) (base.writeReg 12 0xA0000019) (fun t => (csrRead (.dmw ⟨0, by decide⟩) t, t.readReg 12)) =
      some (0xA0000019, 0) := by decide
/-- V13. -/
theorem test_csrwr_eentry :
    after (.csrwr 12 0xC) (base.writeReg 12 0x1C00013F) (csrRead .eentry) = some 0x1C000100 := by decide
/-- V22. -/
theorem test_csrwr_tval_is_ignored :
    after (.csrwr 12 0x42) { base with timer := { base.timer with val := 0x55, running := true } }
      (fun t => (csrRead .tval t, t.readReg 12)) = some (0x55, 0x55) := by decide
/-- V10, V11, V12, V21, V83. -/
theorem test_csr_refusals :
    refusal (.csrrd 12 0x10) base = some (.undefinedCsr 0x10) ∧
    refusal (.csrwr 12 0x0) (base.writeReg 12 0x10) = some (.translationModeWrite false true) ∧
    refusal (.csrwr 12 0x0) (base.writeReg 12 0x9) = some (.illegalPrivilegeLevel 1) ∧
    refusal (.csrwr 12 0x180) (base.writeReg 12 0xFFFFFFFF) = some (.reservedAccessType 3) ∧
    refusal (.csrwr 12 0x41) (base.writeReg 12 0x1) = some .zeroTimerStart := by decide

/-- D8: PRMD takes a PPLV of 1, and only its use by ERTN is refused. -/
theorem test_csrwr_prmd_any_level :
    after (.csrwr 12 0x1) (base.writeReg 12 0x5) (csrRead .prmd) = some 0x5 ∧
    refusal .ertn { base with prmd := { pplv := 1, pie := true } } = some (.illegalPrivilegeLevel 1) := by decide

/-! ## ERTN: 2.3 -/

/-- V30. -/
theorem test_ertn_to_user :
    after .ertn { base with prmd := { pplv := 3, pie := true }, era := 0x1C001000 }
      (fun t => (csrRead .crmd t, t.pc, csrRead .prmd t)) = some (0xF, 0x1C001000, 0x7) := by decide
/-- V34 and V35. -/
theorem test_ertn_llbit :
    after .ertn { base with llbctl := { klo := true, llbit := true } } (·.llbctl) =
      some { klo := false, llbit := true } ∧
    after .ertn { base with llbctl := { klo := false, llbit := true } } (·.llbctl) =
      some { klo := false, llbit := false } := by decide

/-! ## The support subset: 2.4 -/

/-- V42. -/
theorem test_ori_zero_extends : after (.ori 12 0 0xFFF) base (·.readReg 12) = some 0x00000FFF := by decide
/-- V43. -/
theorem test_ori_to_r0 : after (.ori 0 0 0xFFF) base (fun t => (t.gpr, t.pc)) = some (base.gpr, 0x1C000004) := by decide
/-- V44. -/
theorem test_lu12iw : after (.lu12iw 12 0x1C000) base (·.readReg 12) = some 0x1C000000 := by decide
/-- V45. -/
theorem test_andn : after (.andn 12 12 13) ((base.writeReg 12 0xC).writeReg 13 0x4) (·.readReg 12) = some 0x8 := by decide
/-- V46. -/
theorem test_or : after (.or 12 12 13) ((base.writeReg 12 0x8).writeReg 13 0x4) (·.readReg 12) = some 0xC := by decide
/-- V48. -/
theorem test_ldw_negative_offset :
    after (.ldw 13 12 0xFFC) (withWord 0x1C000100 0xDEADBEEF (base.writeReg 12 0x1C000104)) (·.readReg 13) =
      some 0xDEADBEEF := by decide
/-- V47: the lowest address holds the low byte. -/
theorem test_ldw_byte_order :
    after (.ldw 13 12 0)
      { base.writeReg 12 0x1C000100 with
        mem := [(0x1C000100, 0xEF), (0x1C000101, 0xBE), (0x1C000102, 0xAD), (0x1C000103, 0xDE)] } (·.readReg 13) =
      some 0xDEADBEEF := by decide
/-- V49. -/
theorem test_stw_byte_order :
    after (.stw 12 12 0) (base.writeReg 12 0x1C001000) (·.mem) =
      some [(0x1C001000, 0x00), (0x1C001001, 0x10), (0x1C001002, 0x00), (0x1C001003, 0x1C)] := by decide
/-- V50. -/
theorem test_stw_misaligned :
    after (.stw 12 12 2) (handler.writeReg 12 0x1C001000) (fun t => (entryView t, t.mem.length)) =
      some ([0x0, 0x8, 0x1C000000, 0x00090000, 0x1C001002, 0x1C000100], 0) := by decide
/-- V53: the address wraps to 0. -/
theorem test_stw_wraps : after (.stw 12 12 2) (base.writeReg 12 0xFFFFFFFE) (·.mem.map Prod.fst) = some [0, 1, 2, 3] := by
  decide
/-- V51. -/
theorem test_syscall :
    after (.syscall 0) { handler with crmd := { handler.crmd with plv := 3, ie := true } } entryView =
      some [0x7, 0x8, 0x1C000000, 0x000B0000, 0, 0x1C000100] := by decide
/-- V52. -/
theorem test_break :
    after (.brk 0) handler entryView = some [0x0, 0x8, 0x1C000000, 0x000C0000, 0, 0x1C000100] := by decide

/-! ## A step: 2.5, 2.6, 2.7 -/

/-- V1 as a step from reset. -/
theorem test_step_from_reset :
    stepped (State.reset.withFetchWord 32 0x0400000C) (fun t => (t.readReg 12, t.pc)) = some (0x8, 0x1C000004) := by decide
/-- V36: the fetch at the odd address ERTN jumped to. -/
theorem test_step_misaligned_pc :
    stepped { handler with pc := 0x1C001002 } entryView =
      some [0x0, 0x8, 0x1C001002, 0x00080000, 0x1C001002, 0x1C000100] := by decide

/-- V70 with EENTRY as in `handler` and the core accepting. -/
def v70 : State :=
  { handler with
    crmd := { handler.crmd with ie := true }
    ecfg := { lieLow := 1, lieHigh := 0 }
    estat := { swi := 1, ecode := 0, esubcode := 0 }
    schedule := [accepting] }

/-- V70: ESTAT still reads 0x00000001. -/
theorem test_interrupt_is_taken :
    stepped v70 entryView = some [0x4, 0x8, 0x1C000000, 0x00000001, 0, 0x1C000100] := by decide
/-- V74: everything pending, the IPI is selected. -/
theorem test_all_interrupts_pending :
    let s := { v70 with lines := { hwi := 0xFF, ipi := true }, timer := { v70.timer with int := true }
                        estat := { swi := 3, ecode := 0, esubcode := 0 }, ecfg := Ecfg.ofWord 0x1BFF }
    csrRead .estat s = 0x00001BFF ∧ s.intVec = 0x1BFF ∧ s.intPending = true ∧ arbitrate s.intVec = some .ipi := by decide
/-- V60: the interrupt comes before the fetch address error. -/
theorem test_interrupt_before_adef :
    stepped { v70 with pc := 0x1C000102 } entryView =
      some [0x4, 0x8, 0x1C000102, 0x00000001, 0, 0x1C000100] := by decide
/-- V80: 15, 16 and 17 ticks of a periodic timer. -/
theorem test_timer_periodic :
    let t := base.timer.writeTcfg 0x13
    [(t.ticks 15).val, (t.ticks 16).val, (t.ticks 17).val] = [1, 0, 0x10] ∧
    [(t.ticks 15).int, (t.ticks 16).int, (t.ticks 17).int] = [false, true, true] := by decide
/-- V81: 17 ticks of a one-shot timer. -/
theorem test_timer_one_shot :
    let t := base.timer.writeTcfg 0x11
    (t.ticks 16).int = true ∧ (t.ticks 16).running = true ∧ (t.ticks 17).running = false := by decide
/-- A step makes the ticks of its input and samples its lines (R150, R170): 16 of them end V80's countdown. -/
theorem test_step_ticks_timer :
    stepped
      { base.withFetchWord 32 0x0380100D with
        timer := base.timer.writeTcfg 0x13
        schedule := [{ lines := { hwi := 0x80, ipi := true }, ticks := 16, accept := false }] }
      (fun t => (t.timer.val, t.timer.int, t.lines)) = some (0, true, { hwi := 0x80, ipi := true }) := by decide
/-- D28: at the stop address a declined interrupt ends the run, an accepted one does not. -/
theorem test_end_of_run :
    atStop 0x1C000000 v70 = false ∧ atStop 0x1C000000 { v70 with schedule := [StepInput.quiet low] } = true ∧
    atStop 0x1C000004 base = false := by decide
/-- R88: the two-instruction expansion, and the text of an instruction of the source (E4). -/
theorem test_li_and_text :
    (expandLi 12 0x1C000100).map asmText = ["lu12i.w $t0, 114688", "ori $t0, $t0, 256"] ∧
    (expandLi 13 0x4).map asmText = ["ori $t1, $zero, 4"] ∧
    asmText (.csrxchg 12 12 0x0) = "csrxchg $t0, $t0, CSR_CRMD" := by decide

/-! ## Cases that meet the hypotheses of the statements -/

/-- The answer of an instruction or a step is a next state that passes a check. -/
theorem exists_next (o : Host.Outcome State Fault Refusal) (p : State → Bool)
    (h : (match o with | .next t => p t | .fault _ => false | .refused _ => false) = true) :
    ∃ t, o = .next t ∧ p t = true := by
  cases o with
  | next t => exact ⟨t, rfl, h⟩
  | fault => cases h
  | refused => cases h

/-- User code that is about to run `ori $t1, $zero, 4`. -/
def userOri : State := (atLevel 3 base).withFetchWord 32 0x0380100D

/-- ORI at 0x1C000000, which the next step fetches. -/
theorem fetches_ori : Fetches (base.withFetchWord 32 0x0380100D) 0x0380100D := by
  refine ⟨by decide, by decide, ⟨rfl, rfl⟩, ?_, by decide⟩
  unfold ReadableWord
  decide

/-- A word outside the table, which the next step fetches. -/
theorem fetches_outside : Fetches (base.withFetchWord 32 0x06483801) 0x06483801 := by
  refine ⟨by decide, by decide, ⟨rfl, rfl⟩, ?_, by decide⟩
  unfold ReadableWord
  decide

theorem witness_DecodeOfEncodeIsIdentity : (Instr.csrxchg 31 2 0x3FFF).wellFormed = true := by decide

theorem witness_EncodeOfDecodeIsIdentity : decodeWord 0x0406000C = .ok (.csrrd 12 0x180) := by decide

theorem witness_DecoderFollowsOpcodeMap :
    (decodeWord 0x04000040 = .ok (.csrxchg 0 2 0x0) ∧ rowOf (.csrxchg 0 2 0x0) = rowCsrxchg) ∧
    (∃ r ∈ opcodeTable, 0x06483800#32 &&& r.mask = r.pattern) ∧
    (∀ r ∈ opcodeTable, 0x06483801#32 &&& r.mask ≠ r.pattern) := by decide

theorem witness_OpcodeRowsAreDisjoint :
    rowCsrxchg ∈ opcodeTable ∧ rowCsrwr ∈ opcodeTable ∧ rowCsrxchg ≠ rowCsrwr ∧
    0x0400002C#32 &&& rowCsrxchg.mask = rowCsrxchg.pattern ∧ 0x0400002C#32 &&& rowCsrwr.mask = rowCsrwr.pattern := by
  decide

theorem witness_StepExecutesFetchedInstruction :
    ∃ s w i, Fetches s w ∧ decodeWord w = .ok i :=
  ⟨_, _, .ori 13 0 0x004, fetches_ori, by decide⟩

theorem witness_AcceptedInterruptIsTaken : v70.arrive.intPending = true ∧ v70.nextInput.accept = true := by decide

theorem witness_MisalignedPcRaisesAdef :
    ∃ s : State, s.takesInterrupt = false ∧ s.pc.toNat % 4 ≠ 0 :=
  ⟨{ base with pc := 0x1C000003 }, by decide⟩

theorem witness_WithFetchWordRunsTheWord :
    State.reset.mem.wf ∧ decodeWord (BitVec.ofNat 32 (0x0400000C % 2 ^ 32)) = .ok (.csrrd 12 0x0) := by decide

theorem witness_WordOutsideTableIsRefused : ∃ s w, Fetches s w ∧ ∀ i, decodeWord w ≠ .ok i := by
  refine ⟨_, _, fetches_outside, fun i h => ?_⟩
  have : decodeWord 0x06483801 = .error (.notInTable 0x06483801) := by decide
  rw [this] at h
  cases h

theorem userOri_steps : ∃ t, step userOri = .next t :=
  (exists_next (step userOri) (fun _ => true) (by decide)).imp fun _ h => h.1

/-- A schedule with a head and an empty one; a step that only ticks the timer, and a write of TICLR. -/
theorem witness_StepUsesOneInput :
    base.schedule = StepInput.quiet low :: [StepInput.quiet low] ∧ State.reset.schedule = [] ∧
    (∃ t, step userOri = .next t) ∧ ∃ t, step (base.withFetchWord 32 0x0401102D) = .next t :=
  ⟨by decide, by decide, userOri_steps, (exists_next _ (fun _ => true) (by decide)).imp fun _ h => h.1⟩

/-- An ERTN at PLV0 about to be fetched, so that the third clause is met. -/
theorem witness_ErtnAloneTransfersControl : ∃ t, step (base.withFetchWord 32 0x06483800) = .next t :=
  (exists_next _ (fun _ => true) (by decide)).imp fun _ h => h.1

/-- The aligned clause at the last word of the address space, the misaligned one beside it. -/
theorem witness_LdwResult :
    let s := withWord 0xFFFFFFFC 0xDEADBEEF base
    ((s.readReg 0 + (0xFFC#12).signExtend 32).toNat % 4 = 0 ∧ DirectMode s ∧
      ReadableWord s (s.readReg 0 + (0xFFC#12).signExtend 32).toNat 0xDEADBEEF) ∧
    (s.readReg 0 + (0xFFD#12).signExtend 32).toNat % 4 ≠ 0 := by
  refine ⟨⟨by decide, ⟨rfl, rfl⟩, ?_⟩, by decide⟩
  unfold ReadableWord
  decide

theorem witness_StwResult :
    (base.mem.wf ∧ (base.readReg 0 + (0xFFC#12).signExtend 32).toNat % 4 = 0 ∧ DirectMode base ∧
      WritableWord base (base.readReg 0 + (0xFFC#12).signExtend 32).toNat) ∧
    (base.readReg 0 + (0xFFD#12).signExtend 32).toNat % 4 ≠ 0 := by
  refine ⟨⟨by decide, by decide, ⟨rfl, rfl⟩, ?_⟩, by decide⟩
  unfold WritableWord
  decide

/-- A map with a ROM word at 0, a device word at 4, a RAM word at 8 and nothing else. -/
def smallMap : State :=
  { base with memMap := [{ base := 0, size := 4, kind := .rom }, { base := 4, size := 4, kind := .device },
      { base := 8, size := 4, kind := .ram }] }

/-- The mapped mode of R66. -/
def mappedMode : State := { base with crmd := { base.crmd with da := false, pg := true } }

theorem witness_LoadStops :
    (0#32 = mappedMode.readReg 0 + (0#12).signExtend 32 ∧ (0#32).toNat % 4 = 0 ∧ ¬ DirectMode mappedMode) ∧
    DirectMode smallMap ∧
    (12#32 = smallMap.readReg 0 + (12#12).signExtend 32 ∧ ∃ k, k < 4 ∧ regionAt smallMap.memMap (12 + k) = none) ∧
    (4#32 = smallMap.readReg 0 + (4#12).signExtend 32 ∧ (∀ k, k < 4 → regionAt smallMap.memMap (4 + k) ≠ none) ∧
      ∃ k, k < 4 ∧ regionAt smallMap.memMap (4 + k) = some .device) ∧
    (0#32 = smallMap.readReg 0 + (0#12).signExtend 32 ∧
      (∀ k, k < 4 → regionAt smallMap.memMap (0 + k) = some .ram ∨ regionAt smallMap.memMap (0 + k) = some .rom) ∧
      ∃ k, k < 4 ∧ Memory.read smallMap.mem (0 + k) = none) := by
  unfold DirectMode
  decide

theorem witness_StoreStops :
    (0#32 = mappedMode.readReg 0 + (0#12).signExtend 32 ∧ (0#32).toNat % 4 = 0 ∧ ¬ DirectMode mappedMode) ∧
    DirectMode smallMap ∧
    (12#32 = smallMap.readReg 0 + (12#12).signExtend 32 ∧ ∃ k, k < 4 ∧ regionAt smallMap.memMap (12 + k) = none) ∧
    (4#32 = smallMap.readReg 0 + (4#12).signExtend 32 ∧ (∀ k, k < 4 → regionAt smallMap.memMap (4 + k) ≠ none) ∧
      ∃ k, k < 4 ∧ regionAt smallMap.memMap (4 + k) = some .device) ∧
    (0#32 = smallMap.readReg 0 + (0#12).signExtend 32 ∧
      (∀ k, k < 4 → regionAt smallMap.memMap (0 + k) = some .ram ∨ regionAt smallMap.memMap (0 + k) = some .rom) ∧
      ∃ k, k < 4 ∧ regionAt smallMap.memMap (0 + k) = some .rom) := by
  unfold DirectMode
  decide

theorem witness_FetchStops :
    (mappedMode.takesInterrupt = false ∧ mappedMode.pc.toNat % 4 = 0 ∧ ¬ DirectMode mappedMode) ∧
    (let s : State := { smallMap with pc := 12 }
     s.takesInterrupt = false ∧ s.pc.toNat % 4 = 0 ∧ DirectMode s ∧
      ∃ k, k < 4 ∧ regionAt s.memMap (s.pc.toNat + k) = none) ∧
    (let s : State := { smallMap with pc := 4 }
     s.takesInterrupt = false ∧ s.pc.toNat % 4 = 0 ∧ DirectMode s ∧
      (∀ k, k < 4 → regionAt s.memMap (s.pc.toNat + k) ≠ none) ∧
      ∃ k, k < 4 ∧ regionAt s.memMap (s.pc.toNat + k) = some .device) ∧
    (let s : State := { smallMap with pc := 0 }
     s.takesInterrupt = false ∧ s.pc.toNat % 4 = 0 ∧ DirectMode s ∧
      (∀ k, k < 4 → regionAt s.memMap (s.pc.toNat + k) = some .ram ∨ regionAt s.memMap (s.pc.toNat + k) = some .rom) ∧
      ∃ k, k < 4 ∧ Memory.read s.mem (s.pc.toNat + k) = none) := by
  unfold DirectMode
  decide

/-- The state after the store, its pc set to the stored word. -/
theorem witness_FetchOfStoredWordIsRefused :
    ∃ s t u : State, s.mem.wf ∧ exec (.stw 12 12 0) s = .next t ∧
      (s.readReg 12 + (0#12).signExtend 32).toNat % 4 = 0 ∧ u.pc = s.readReg 12 + (0#12).signExtend 32 ∧
      u.takesInterrupt = false ∧ DirectMode u ∧ u.mem = t.mem ∧ u.memMap = t.memMap ∧ u.stored = t.stored := by
  obtain ⟨t, ht, hp⟩ := exists_next (exec (.stw 12 12 0) (base.writeReg 12 0x1C001000))
    (fun t => { t with pc := 0x1C001000#32 }.takesInterrupt == false && t.crmd.da && !t.crmd.pg) (by decide)
  simp only [Bool.and_eq_true, beq_iff_eq, Bool.not_eq_true'] at hp
  exact ⟨_, t, { t with pc := 0x1C001000#32 }, by decide, ht, by decide,
    show 0x1C001000#32 = _ by decide, hp.1.1, ⟨hp.1.2, hp.2⟩, rfl, rfl, rfl⟩

theorem witness_NarrowReadSeesWideWrite :
    base.mem.wf ∧ ∃ t, base.memWrite 0xFFFFFFFC 4 0xDEADBEEF#32 = .ok t := ⟨by decide, _, rfl⟩

theorem witness_MemoryChangesOnlyByStore :
    (base.withFetchWord 32 0x29800000).mem.wf ∧ ∃ t, step (base.withFetchWord 32 0x29800000) = .next t :=
  ⟨by decide, (exists_next _ (fun _ => true) (by decide)).imp fun _ h => h.1⟩

theorem witness_CsrNumbersAreUnique :
    Csr.ofNumber 0x181 = some (.dmw ⟨1, by decide⟩) ∧ Csr.ofNumber 0x33 = some (.save 3) := by decide

theorem witness_TimerAndWindowCsrLayout : (base.timer.writeTcfg 0x13).running = true := by decide

/-- A legal and a refused write of each CSR whose write can be refused, and a legal one of another. -/
theorem witness_CsrWriteFollowsMask :
    (∀ c ∈ [Csr.crmd, .prmd, .tcfg, .dmw ⟨1, by decide⟩, .badv], ∀ i, c ≠ .save i) ∧
    (WriteLegal .crmd 0xFFFFFCAB ∧ ¬ WriteLegal .crmd 0x00000009) ∧ WriteLegal .prmd 0x6 ∧
    (WriteLegal .tcfg 0x5 ∧ ¬ WriteLegal .tcfg 0x3) ∧
    (WriteLegal (.dmw ⟨1, by decide⟩) 0x10 ∧ ¬ WriteLegal (.dmw ⟨1, by decide⟩) 0x20) ∧ WriteLegal .badv 0x0 := by
  unfold WriteLegal
  decide

theorem witness_CsrrdResult : base.crmd.plv = 0#2 ∧ Csr.ofNumber 0x5 = some .estat := by decide

theorem witness_CsrwrResult :
    base.crmd.plv = 0#2 ∧ Csr.ofNumber 0x0 = some .crmd ∧ WriteLegal .crmd ((base.writeReg 12 0xB).readReg 12) ∧
    ¬ WriteLegal .crmd ((base.writeReg 12 0xA).readReg 12) := by
  unfold WriteLegal
  decide

/-- Mask 0 (V15), a legal exchange (V16) and a refused one (PG set). -/
theorem witness_CsrxchgResult :
    (∀ r : Word, ((base.writeReg 12 r).crmd.plv = 0#2)) ∧ Csr.ofNumber 0x0 = some .crmd ∧ base.readReg 13 = 0#32 ∧
    ((base.writeReg 12 0x4).readReg 12 ≠ 0#32 ∧
      WriteLegal .crmd ((csrRead .crmd (base.writeReg 12 0x4) &&& ~~~0x4#32) ||| (0x4#32 &&& 0x4#32))) ∧
    ((base.writeReg 12 0x10).readReg 12 ≠ 0#32 ∧
      ¬ WriteLegal .crmd ((csrRead .crmd (base.writeReg 12 0x10) &&& ~~~0x10#32) ||| (0x10#32 &&& 0x10#32))) := by
  refine ⟨fun r => rfl, by decide, by decide, ?_, ?_⟩
  all_goals unfold WriteLegal; decide

theorem witness_SaveRegistersAreScratch : base.crmd.plv = 0#2 := by decide

theorem witness_UndefinedCsrIsRefused :
    base.crmd.plv = 0#2 ∧ Csr.ofNumber 0x3 = none ∧ Csr.ofNumber 0x182 = none ∧ Csr.ofNumber 0x34 = none := by decide

theorem witness_PrivilegedInstructionsTrap :
    (atLevel 3 base).crmd.plv ≠ 0#2 ∧ (atLevel 1 base).crmd.plv ≠ 0#2 ∧
    Instr.ertn ∈ [Instr.csrrd 0 0, .csrwr 0 0, .csrxchg 0 0 0, .ertn] := by decide

theorem witness_ErtnReturns :
    (base.crmd.plv = 0#2 ∧ base.prmd.pplv = 0#2 ∧ base.estat.ecode ≠ 0x3F#6) ∧
    (let s : State := { base with prmd := { pplv := 3, pie := true }, estat := { base.estat with ecode := 0x3F } }
     s.crmd.plv = 0#2 ∧ s.prmd.pplv = 3#2 ∧ s.estat.ecode = 0x3F#6) ∧
    (let s : State := { base with prmd := { pplv := 1, pie := true } }; s.crmd.plv = 0#2 ∧ s.prmd.pplv = 1#2) ∧
    (let s : State := { base with prmd := { pplv := 2, pie := true } }; s.crmd.plv = 0#2 ∧ s.prmd.pplv = 2#2) := by
  decide

/-- Three events at one instruction (the interrupt, the misaligned pc and SYSCALL), and none. -/
theorem witness_FirstRankedEventIsTaken :
    (∃ s t : State, step s = .next t ∧
      events s.nextInput.accept s.arrive = [(.decode, .sys), (.fetch, .adef), (.marked, .int)]) ∧
    ∃ s t : State, step s = .next t ∧ events s.nextInput.accept s.arrive = [] := by
  constructor
  · obtain ⟨t, ht, -⟩ := exists_next (step { withWord 0x1C000002 0x002B0000 v70 with pc := 0x1C000002#32 })
      (fun _ => true) (by decide)
    exact ⟨_, t, ht, by decide⟩
  · obtain ⟨t, ht, -⟩ := exists_next (step userOri) (fun _ => true) (by decide)
    exact ⟨_, t, ht, by decide⟩

/-- The highest bit of each range. -/
theorem witness_InterruptVectorBits :
    (1 < 2 ∧ (3#2).getLsbD 1 = true) ∧ (7 < 8 ∧ (0x80#8).getLsbD 7 = true) ∧ v70.crmd.ie = true ∧ v70.intVec ≠ 0#13 := by
  decide

theorem witness_LargestInterruptNumberWins :
    (arbitrate 0x0801#13 = some .ti ∧ (0x0801#13).getLsbD (Interrupt.swi 0).number = true) ∧ arbitrate 0x0400#13 = none ∧
    v70.takesInterrupt = true := by decide

theorem witness_InterruptEntryKeepsPendingBits : v70.takesInterrupt = true ∧ ∃ t, step v70 = .next t :=
  ⟨by decide, (exists_next (step v70) (fun _ => true) (by decide)).imp fun _ h => h.1⟩

/-- One declined step, then an input that accepts. -/
theorem witness_ScheduledAcceptanceTakesInterrupt :
    ∃ (run : Nat → State) (inp : StepInput), (∀ j, j < 1 → step (run j) = .next (run (j + 1))) ∧
      (run 0).schedule[1]? = some inp ∧ inp.accept = true ∧ (run 1).arrive.intPending = true := by
  obtain ⟨t, ht, hp⟩ := exists_next (step (v70.withFetchWord 32 0x0380100D)) (fun t => t.arrive.intPending) (by decide)
  refine ⟨fun j => if j = 0 then v70.withFetchWord 32 0x0380100D else t, accepting, fun j hj => ?_, rfl, rfl, hp⟩
  obtain rfl : j = 0 := by omega
  exact ht

/-- CSRXCHG of CRMD with mask 4: the new IE is 1, and then 0. -/
theorem witness_EnableTakesEffectAtNextInstruction :
    (let s := { v70 with crmd := base.crmd }.writeReg 12 0x4
     s.crmd.plv = 0#2 ∧ bit (s.readReg 12) 2 = true ∧
      ∃ t, exec (.csrxchg 12 12 0x0) s = .next t ∧ bit (s.readReg 12) 2 = true ∧ t.arrive.intVec ≠ 0#13 ∧
        t.nextInput.accept = true) ∧
    (let s := v70.writeReg 13 0x4
     s.crmd.plv = 0#2 ∧ bit (s.readReg 13) 2 = true ∧
      ∃ t, exec (.csrxchg 12 13 0x0) s = .next t ∧ bit (s.readReg 12) 2 = false) := by
  refine ⟨⟨by decide, by decide, ?_⟩, by decide, by decide, ?_⟩
  · obtain ⟨t, ht, hp⟩ := exists_next (exec (.csrxchg 12 12 0x0) ({ v70 with crmd := base.crmd }.writeReg 12 0x4))
      (fun t => t.arrive.intVec != 0#13 && t.nextInput.accept) (by decide)
    simp only [Bool.and_eq_true, bne_iff_ne, ne_eq] at hp
    exact ⟨t, ht, by decide, hp.1, hp.2⟩
  · obtain ⟨t, ht, -⟩ := exists_next (exec (.csrxchg 12 13 0x0) (v70.writeReg 13 0x4)) (fun _ => true) (by decide)
    exact ⟨t, ht, by decide⟩

/-- No tick, every tick down to zero, and a counter already at zero. -/
theorem witness_TimerCountsDownToInterrupt :
    let t := base.timer.writeTcfg 0x13
    t.en = true ∧ t.running = true ∧ 0 ≤ t.val.toNat ∧ 16 ≤ t.val.toNat ∧
    { t with val := 0#32 }.en = true ∧ { t with val := 0#32 }.running = true ∧ 0 ≤ { t with val := 0#32 }.val.toNat := by
  decide

theorem witness_TimerReloadsOrStops :
    (let t := base.timer.writeTcfg 0x13; t.en = true ∧ t.running = true ∧ t.periodic = true) ∧
    (let t := base.timer.writeTcfg 0x11; t.en = true ∧ t.running = true ∧ t.periodic = false) := by decide

theorem witness_TimerHoldsAndLatchStays :
    (base.timer.writeTcfg 0x10).en = false ∧ ((base.timer.writeTcfg 0x11).ticks 17).running = false ∧
    { base.timer with int := true }.int = true := by
  decide

theorem witness_OnlyExceptionsEnterKernel :
    userOri.crmd.plv ≠ 0#2 ∧ ∃ t, step userOri = .next t := ⟨by decide, userOri_steps⟩

/-- ERTN to PLV3, and CSRWR of CRMD with PLV = 3. -/
theorem witness_KernelIsLeftByErtnOrCrmdWrite :
    (let s := { base with prmd := { pplv := 3, pie := false } }.withFetchWord 32 0x06483800
     s.crmd.plv = 0#2 ∧ ∃ t, step s = .next t ∧ t.crmd.plv ≠ 0#2) ∧
    (let s := (base.writeReg 12 0xB).withFetchWord 32 0x0400002C
     s.crmd.plv = 0#2 ∧ ∃ t, step s = .next t ∧ t.crmd.plv ≠ 0#2) := by
  constructor
  · obtain ⟨t, ht, hp⟩ := exists_next (step ({ base with prmd := { pplv := 3, pie := false } }.withFetchWord 32 0x06483800))
      (fun t => t.crmd.plv != 0#2) (by decide)
    exact ⟨by decide, t, ht, by simpa using hp⟩
  · obtain ⟨t, ht, hp⟩ := exists_next (step ((base.writeReg 12 0xB).withFetchWord 32 0x0400002C))
      (fun t => t.crmd.plv != 0#2) (by decide)
    exact ⟨by decide, t, ht, by simpa using hp⟩

theorem witness_UserCannotWriteCsrs :
    userOri.crmd.plv ≠ 0#2 ∧ ∃ t, step userOri = .next t := witness_OnlyExceptionsEnterKernel

/-- Two states that differ in ESTAT, ERA, BADV, a DMW and the timer. -/
theorem witness_UserCannotReadCsrs :
    let s' : State := { userOri with
      estat := { swi := 3, ecode := 0xB, esubcode := 0 }, era := 0x4, badv := 0x8
      dmw := userOri.dmw.set 0 { plv0 := true, plv3 := true, mat := 1, pseg := 5, vseg := 4 }
      timer := userOri.timer.writeTcfg 0x13 }
    userOri.crmd.plv ≠ 0#2 ∧ s'.crmd.plv ≠ 0#2 ∧ UserViewSame userOri s' ∧ s'.crmd.da = userOri.crmd.da ∧
    s'.crmd.pg = userOri.crmd.pg ∧ userOri.takesInterrupt = false ∧ s'.takesInterrupt = false ∧
    ∃ t, step userOri = .next t ∧ t.crmd.plv ≠ 0#2 := by
  refine ⟨by decide, by decide, ⟨rfl, rfl, rfl, rfl, rfl⟩, rfl, rfl, by decide, by decide, ?_⟩
  obtain ⟨t, ht, hp⟩ := exists_next (step userOri) (fun t => t.crmd.plv != 0#2) (by decide)
  exact ⟨t, ht, by simpa using hp⟩

theorem witness_StepKeepsInvariant : Inv userOri ∧ ∃ t, step userOri = .next t :=
  ⟨⟨by decide, by decide, by decide, ⟨rfl, rfl⟩, by decide, by decide, by decide⟩, userOri_steps⟩

end Sys2Proof.Tests
end

section
/-! PROOFS. The decoder against the opcode map of R84: what an accepted and what a rejected word say of the map's rows. -/

namespace Sys2Proof

open Machine

theorem rowHits_iff {r : OpcodeRow} {w : Word} : rowHits r w = true ↔ w &&& r.mask = r.pattern := beq_iff_eq

theorem rowOf_mem_opcodeTable (i : Instr) : rowOf i ∈ opcodeTable := by
  cases i <;> simp [rowOf, opcodeTable]

theorem maskRegisterOk_iff {rj : Reg} : maskRegisterOk rj = true ↔ 2 ≤ rj.toNat := decide_eq_true_iff

theorem eq_zero_or_one_of_not_maskRegisterOk {rj : Reg} (h : ¬ maskRegisterOk rj = true) : rj = 0#5 ∨ rj = 1#5 := by
  rw [maskRegisterOk_iff] at h
  bv_omega

/-- CSRRD and CSRWR test the opcode byte, as CSRXCHG does, and the `rj` field beside it (R82). -/
theorem and_csrMask_eq (w : Word) : w &&& rowCsrrd.mask = w &&& rowCsrxchg.mask ||| place (fieldRj w) 5 := by
  apply BitVec.eq_of_getElem_eq
  intro j hj
  interval_cases j <;> simp [rowCsrrd, rowCsrxchg, place, fieldRj, field]

/-- R82: a word with the CSR opcode is CSRRD's or CSRWR's, or its `rj` field can be a mask register. -/
theorem rowHits_csrxchg_cases {w : Word} (h : rowHits rowCsrxchg w = true) :
    rowHits rowCsrrd w = true ∨ rowHits rowCsrwr w = true ∨ maskRegisterOk (fieldRj w) = true := by
  have hmask : w &&& rowCsrrd.mask = rowCsrxchg.pattern ||| place (fieldRj w) 5 := by
    rw [and_csrMask_eq, rowHits_iff.mp h]
  by_cases hrj : maskRegisterOk (fieldRj w) = true
  · exact .inr (.inr hrj)
  · obtain h0 | h1 := eq_zero_or_one_of_not_maskRegisterOk hrj
    · rw [h0] at hmask
      exact .inl (rowHits_iff.mpr hmask)
    · rw [h1] at hmask
      exact .inr (.inl (rowHits_iff.mpr hmask))

/-- What a decoded instruction says of its word: the word lies in the instruction's row, and a CSRXCHG has passed the
test of its `rj` field. -/
theorem rowHits_of_decodeWord_eq_ok {w : Word} {i : Instr} (h : decodeWord w = .ok i) :
    rowHits (rowOf i) w = true ∧ (rowOf i = rowCsrxchg → maskRegisterOk (fieldRj w) = true) := by
  revert h
  fun_cases decodeWord w <;> rintro ⟨⟩
  case case3 hxchg =>
    rw [Bool.and_eq_true] at hxchg
    exact ⟨hxchg.1, fun _ => hxchg.2⟩
  all_goals exact ⟨‹_›, fun hr => absurd hr (by simp only [rowOf]; decide)⟩

/-- The decoder rejects a word only when every row's test has failed. -/
theorem no_rowHits_of_decodeWord_eq_error {w : Word} {e : DecodeError} (h : decodeWord w = .error e) :
    e = .notInTable w ∧ ∀ r ∈ opcodeTable, ¬ rowHits r w = true := by
  revert h
  fun_cases decodeWord w <;> rintro ⟨⟩
  case case13 hcsrrd hcsrwr hcsrxchg hertn hori hlu12iw handn hor hldw hstw hsyscall hbreak =>
    have hopcode : ¬ rowHits rowCsrxchg w = true := fun hx => by
      obtain h | h | h := rowHits_csrxchg_cases hx
      · exact hcsrrd h
      · exact hcsrwr h
      · exact hcsrxchg (by rw [hx, h]; rfl)
    simp [opcodeTable, *]

/-- Settles O4. A decoded word lies in the row of its instruction and a rejected word in none, and every word is the one or
the other. -/
theorem decoderFollowsOpcodeMap : Obligations.DecoderFollowsOpcodeMap := by
  unfold Obligations.DecoderFollowsOpcodeMap
  intro w
  refine ⟨fun i hi => ?_, ?_, fun hnone => ?_⟩
  · obtain ⟨hrow, hrj⟩ := rowHits_of_decodeWord_eq_ok hi
    exact ⟨rowOf_mem_opcodeTable i, rowHits_iff.mp hrow, fun hx => maskRegisterOk_iff.mp (hrj hx)⟩
  · rintro ⟨r, hr, hmatch⟩
    cases hw : decodeWord w with
    | ok i => exact ⟨i, rfl⟩
    | error e => exact absurd (rowHits_iff.mpr hmatch) ((no_rowHits_of_decodeWord_eq_error hw).2 r hr)
  · cases hw : decodeWord w with
    | ok i => exact absurd (rowHits_iff.mp (rowHits_of_decodeWord_eq_ok hw).1) (hnone _ (rowOf_mem_opcodeTable i))
    | error e => rw [(no_rowHits_of_decodeWord_eq_error hw).1]

end Sys2Proof
end

section
/-! PROOFS. What taking an exception does (R160), and the privilege check of the four privileged instructions (R105,
R110). -/

namespace Sys2Proof

open Machine Safety

/-- R162: of the two translation bits, only the TLB refill exception changes any, and it sets DA and clears PG. -/
theorem enteredCrmd_translation (e : Exception) (c : Crmd) :
    (enteredCrmd e c).da = (if e = .tlbr then true else c.da) ∧
      (enteredCrmd e c).pg = (if e = .tlbr then false else c.pg) := by
  by_cases he : e = .tlbr <;> simp [enteredCrmd, he]

/-- Trap is the exception entry of R160, for every exception. -/
theorem tookException_trap (e : Exception) (epc badv : Word) (s : State) :
    TookException e epc (if e.recordsBadv then some badv else none) s (s.trap e epc badv) where
  badv := by cases he : e.recordsBadv <;> simp [he]
  da := (enteredCrmd_translation e s.crmd).1
  pg := (enteredCrmd_translation e s.crmd).2
  regs := State.readReg_trap s e epc badv
  memory := ⟨fun _ => rfl, rfl⟩
  outside := ⟨rfl, rfl, rfl, rfl⟩
  pplv := rfl
  pie := rfl
  plv := rfl
  ie := rfl
  era := rfl
  ecode := rfl
  esubcode := rfl
  pc := rfl
  datf := rfl
  datm := rfl
  swi := rfl
  euen := rfl
  ecfg := rfl
  eentry := rfl
  timer := rfl
  llbctl := rfl
  tlbrentry := rfl
  dmw := rfl
  save := rfl

/-- The privilege check outside PLV0, whatever the instruction would go on to do. -/
theorem privileged_of_plv_ne {s : State} (h : s.crmd.plv ≠ 0#2) (k : Host.Outcome State Fault Refusal) :
    s.privileged k = .next (s.trap .ipe s.pc 0#32) := if_neg h

/-- The four privileged instructions make the privilege check before anything else, the look-up of the CSR's number
included. -/
theorem exec_begins_privileged {rd rj : Reg} {n : CsrNumber} {i : Instr}
    (hi : i ∈ [Instr.csrrd rd n, .csrwr rd n, .csrxchg rd rj n, .ertn]) (s : State) :
    ∃ k, exec i s = s.privileged k := by
  simp only [List.mem_cons, List.not_mem_nil, or_false] at hi
  obtain rfl | rfl | rfl | rfl := hi
  · exact ⟨_, rfl⟩
  · exact ⟨_, rfl⟩
  · exact ⟨_, rfl⟩
  · exact ⟨_, rfl⟩

/-- Settles O37. All four begin with the privilege check, which outside PLV0 is Trap with IPE at the pc. -/
theorem privilegedInstructionsTrap : Obligations.PrivilegedInstructionsTrap := by
  unfold Obligations.PrivilegedInstructionsTrap
  intro rd rj n s hplv i hi
  obtain ⟨k, hk⟩ := exec_begins_privileged hi s
  have hentry : TookException .ipe s.pc none s (s.trap .ipe s.pc 0#32) := tookException_trap .ipe s.pc 0#32 s
  exact ⟨_, hk.trans (privileged_of_plv_ne hplv k), hentry, hentry.ecode, hentry.esubcode⟩

end Sys2Proof
end

section
/-! PROOFS. Reading memory (R63, R64): what the checks of an access answer, and the word a readable address gives. -/

namespace Sys2Proof

open Machine Safety

/-- If each byte of an access holds its part of `v`, the bytes read together are `v` (R61). -/
theorem readLE_eq_some {m : Memory} {n a : Nat} {v : BitVec (8 * n)}
    (h : ∀ k < n, Memory.read m (a + k) = some (v.extractLsb' (8 * k) 8)) : Memory.readLE m a n = some v := by
  induction n generalizing a with
  | zero => simp [Memory.readLE, BitVec.eq_nil v]
  | succ n ih =>
    have hfirst : Memory.read m a = some (v.extractLsb' 0 8) := h 0 (Nat.succ_pos n)
    have hrest : Memory.readLE m (a + 1) n = some (v.extractLsb' 8 (8 * n)) := ih fun k hk => by
      rw [Nat.add_right_comm, Nat.add_assoc, h (k + 1) (by omega)]
      congr 1
      apply BitVec.eq_of_getElem_eq
      intro j hj
      simp [show 8 * k + j < 8 * n by omega, show 8 * (k + 1) + j = 8 + (8 * k + j) by omega]
    have hjoin : v.extractLsb' 8 (8 * n) ++ v.extractLsb' 0 8 = v :=
      (BitVec.extractLsb'_append_extractLsb'_eq_extractLsb' rfl).trans BitVec.extractLsb'_eq_self
    rw [Memory.readLE, hfirst, hrest]
    exact congrArg some hjoin

/-- Everything `regionsAt` lists stands at one of the bytes of the access. -/
theorem exists_regionAt_of_mem_regionsAt {map : List Region} {a n : Nat} {r : Option RegionKind}
    (h : r ∈ regionsAt map a n) : ∃ k < n, regionAt map (a + k) = r := by
  induction n generalizing a with
  | zero => cases h
  | succ n ih =>
    obtain rfl | h := List.mem_cons.mp h
    · exact ⟨0, Nat.succ_pos n, rfl⟩
    · obtain ⟨k, hk, hr⟩ := ih h
      exact ⟨k + 1, Nat.succ_lt_succ hk, by rw [← hr, Nat.add_right_comm, Nat.add_assoc]⟩

/-- The map lets a fetch or a load through whose bytes all lie in RAM or ROM. -/
theorem checkMap_of_readable {s : State} {kind : AccessKind} {addr : Word} {pa n : Nat} (hkind : kind ≠ .store)
    (h : ∀ k < n, regionAt s.memMap (pa + k) = some .ram ∨ regionAt s.memMap (pa + k) = some .rom) :
    s.checkMap kind addr pa n = .ok () := by
  have hall : ∀ r ∈ regionsAt s.memMap pa n, r = some .ram ∨ r = some .rom := fun r hr => by
    obtain ⟨k, hk, rfl⟩ := exists_regionAt_of_mem_regionsAt hr
    exact h k hk
  have hnone : none ∉ regionsAt s.memMap pa n := fun hr => by simpa using hall _ hr
  have hdevice : some .device ∉ regionsAt s.memMap pa n := fun hr => by simpa using hall _ hr
  simp [State.checkMap, hnone, hdevice, hkind]

theorem translate_of_directMode {s : State} (h : DirectMode s) (kind : AccessKind) (addr : Word) :
    s.translate kind addr = .ok addr.toNat := by
  simp [State.translate, h.1, h.2]

theorem checkAlign_of_aligned {addr : Word} {n : Nat} (h : addr.toNat % n = 0) (kind : AccessKind) :
    checkAlign kind addr n = .ok () := if_pos h

theorem checkAlign_of_misaligned {addr : Word} {n : Nat} (h : addr.toNat % n ≠ 0) (kind : AccessKind) :
    checkAlign kind addr n = .raise (misaligned kind) addr := if_neg h

/-- A fetch or a load of an aligned, readable word passes every check of R64 and gives the word. -/
theorem memRead_of_readableWord {s : State} {kind : AccessKind} {addr v : Word} (hkind : kind ≠ .store)
    (halign : addr.toNat % 4 = 0) (hmode : DirectMode s) (hread : ReadableWord s addr.toNat v) :
    s.memRead kind addr 4 = .ok v := by
  have hmap : s.checkMap kind addr addr.toNat 4 = .ok () := checkMap_of_readable hkind fun k hk => (hread k hk).1
  have hbytes : Memory.readLE s.mem addr.toNat 4 = some v := readLE_eq_some fun k hk => (hread k hk).2
  simp only [State.memRead, checkAlign_of_aligned halign, translate_of_directMode hmode, Result.andThen, hmap, hbytes]

/-- The alignment check is the first of R64: whatever the map and the mode, a misaligned access raises its exception. -/
theorem memRead_of_misaligned {addr : Word} {n : Nat} (h : addr.toNat % n ≠ 0) (s : State) (kind : AccessKind) :
    s.memRead kind addr n = .raise (misaligned kind) addr := by
  rw [State.memRead, checkAlign_of_misaligned h, Result.andThen]

end Sys2Proof
end

section
/-! PROOFS. The support subset of the base instructions (R121 to R128): those that end in the write of
one register, and those that always raise an exception. -/

namespace Sys2Proof

open Machine Safety

/-- The shape all register instructions share (R121 to R125): one register write, then `pc + 4`. -/
theorem wroteOnlyReg_writeReg_advance (rd : Reg) (v : Word) (s : State) :
    WroteOnlyReg rd v s (s.writeReg rd v).advance where
  reg r := by rw [State.readReg_advance, State.readReg_writeReg]
  pc := by simp
  csrs := by constructor <;> simp
  memory := by constructor <;> simp
  outside := by constructor <;> simp

/-- Settles O13. ORI writes `x[rj] | zext_12(ui12)` with its one register write; its opcode evaluates to the
pattern of R84. -/
theorem oriResult : Obligations.OriResult := by
  unfold Obligations.OriResult
  exact fun rd rj ui12 s => ⟨rfl, _, rfl, wroteOnlyReg_writeReg_advance rd (s.readReg rj ||| ui12.setWidth 32) s⟩

/-- The placed immediate of LU12I.W is the concatenation that R122 writes. -/
theorem immSi20_eq_append (si20 : BitVec 20) : immSi20 si20 = si20 ++ 0#12 := by
  rw [BitVec.append_def]
  simp [immSi20, place, BitVec.shiftLeftZeroExtend_eq]

/-- Settles O14. LU12I.W writes its placed immediate with its one register write; its opcode evaluates to the
pattern of R84. -/
theorem lu12iwResult : Obligations.Lu12iwResult := by
  unfold Obligations.Lu12iwResult
  intro rd si20 s
  rw [← immSi20_eq_append]
  exact ⟨rfl, _, rfl, wroteOnlyReg_writeReg_advance rd (immSi20 si20) s⟩

/-- Settles O15. ANDN writes `x[rj] & ~x[rk]` with its one register write; its opcode evaluates to the
pattern of R84. -/
theorem andnResult : Obligations.AndnResult := by
  unfold Obligations.AndnResult
  exact fun rd rj rk s => ⟨rfl, _, rfl, wroteOnlyReg_writeReg_advance rd (s.readReg rj &&& ~~~s.readReg rk) s⟩

/-- Settles O16. OR writes `x[rj] | x[rk]` with its one register write; its opcode evaluates to the
pattern of R84. -/
theorem orResult : Obligations.OrResult := by
  unfold Obligations.OrResult
  exact fun rd rj rk s => ⟨rfl, _, rfl, wroteOnlyReg_writeReg_advance rd (s.readReg rj ||| s.readReg rk) s⟩

/-- Settles O19. The whole meaning of SYSCALL is Trap with SYS, which gives no address to BADV. -/
theorem syscallTraps : Obligations.SyscallTraps := by
  unfold Obligations.SyscallTraps
  intro code s
  have hentry : TookException .sys s.pc none s (s.trap .sys s.pc 0#32) := tookException_trap .sys s.pc 0#32 s
  exact ⟨rfl, _, rfl, hentry, hentry.ecode, hentry.esubcode⟩

/-- Settles O20. The whole meaning of BREAK is Trap with BRK, which gives no address to BADV. -/
theorem breakTraps : Obligations.BreakTraps := by
  unfold Obligations.BreakTraps
  intro code s
  have hentry : TookException .brk s.pc none s (s.trap .brk s.pc 0#32) := tookException_trap .brk s.pc 0#32 s
  exact ⟨rfl, _, rfl, hentry, hentry.ecode, hentry.esubcode⟩

/-- LD.W reads at the effective address and ends as that read ends. -/
theorem exec_ldw (rd rj : Reg) (si12 : BitVec 12) (s : State) :
    exec (.ldw rd rj si12) s = (s.memRead .load (s.readReg rj + si12.signExtend 32) 4).finish s
      fun v => .next (s.writeReg rd v).advance := rfl

/-- Settles O17. A readable word reaches the register write; a misaligned address ends the read, and the instruction, in
ALE with that address. -/
theorem ldwResult : Obligations.LdwResult := by
  unfold Obligations.LdwResult
  intro rd rj si12 s
  refine ⟨rfl, fun v halign hmode hread => ?_, fun hmis => ?_⟩
  · have hload := memRead_of_readableWord (kind := .load) (by decide) halign hmode hread
    exact ⟨_, by rw [exec_ldw, hload, Result.finish], wroteOnlyReg_writeReg_advance rd v s⟩
  · have hentry := tookException_trap .ale s.pc (s.readReg rj + si12.signExtend 32) s
    have hload := memRead_of_misaligned hmis s .load
    exact ⟨_, by rw [exec_ldw, hload]; rfl, hentry, hentry.ecode, hentry.esubcode⟩

end Sys2Proof
end

section
/-! PROOFS. The interrupt vector (R143 to R146), its arbitration (R148), and the step that takes an interrupt (R149). -/

namespace Sys2Proof

open Machine Safety

/-- ESTAT.IS by its sources, the highest interrupt number first: the IPI line, the timer latch, the bit of no interrupt,
the hardware lines, the software bits (R143). -/
theorem isVec_eq_append (s : State) :
    s.isVec = BitVec.ofBool s.lines.ipi ++ BitVec.ofBool s.timer.int ++ 0#1 ++ s.lines.hwi ++ s.estat.swi := by
  apply BitVec.eq_of_getLsbD_eq
  intro j hj
  simp only [BitVec.getLsbD_append]
  interval_cases j <;> simp [State.isVec, csrRead, estatWord]

/-- ECFG.LIE by its stored parts; bit 10 enables nothing (R19, R145). -/
theorem lieVec_eq_append (s : State) : s.lieVec = s.ecfg.lieHigh ++ 0#1 ++ s.ecfg.lieLow := by
  apply BitVec.eq_of_getLsbD_eq
  intro j hj
  simp only [BitVec.getLsbD_append]
  interval_cases j <;> simp [State.lieVec, csrRead, Ecfg.toWord]

/-- R146: the condition under which an interrupt is pending. -/
theorem intPending_iff (s : State) : s.intPending = true ↔ s.crmd.ie = true ∧ s.intVec ≠ 0#13 := by
  simp [State.intPending]

theorem getLsbD_intVec (s : State) (k : Nat) : s.intVec.getLsbD k = (s.isVec.getLsbD k && s.lieVec.getLsbD k) :=
  BitVec.getLsbD_and

theorem getLsbD_intVec_ten (s : State) : s.intVec.getLsbD 10 = false := by
  simp only [getLsbD_intVec, isVec_eq_append, BitVec.getLsbD_append]
  simp

/-- Settles O42. Both vectors are given by their parts, so each bit of their conjunction is the and of one bit of each. -/
theorem interruptVectorBits : Obligations.InterruptVectorBits := by
  unfold Obligations.InterruptVectorBits
  intro s
  refine ⟨fun k hk => ?_, fun k hk => ?_, getLsbD_intVec_ten s, ?_, ?_, intPending_iff s⟩
  all_goals simp only [getLsbD_intVec, isVec_eq_append, lieVec_eq_append, BitVec.getLsbD_append]
  · simp [hk, show k < 10 by omega]
  · simp [hk, show 2 + k < 10 by omega, show ¬ 2 + k ≤ 1 by omega]
  · simp
  · simp

/-! ## The step that takes an interrupt (R147, R149) -/

theorem step_of_takesInterrupt {s : State} (h : s.takesInterrupt = true) : step s = .next s.arrive.interrupt := if_pos h

/-- Taking an interrupt is the common exception entry, with INT, at the pc (R149). -/
theorem tookException_interrupt (s : State) : TookException .int s.pc none s s.interrupt :=
  tookException_trap .int s.pc 0#32 s

/-- Settles O7. A pending interrupt that the input accepts is one the step takes, and taking it is the exception entry. -/
theorem acceptedInterruptIsTaken : Obligations.AcceptedInterruptIsTaken := by
  unfold Obligations.AcceptedInterruptIsTaken
  intro s hpending haccept
  have htakes : s.takesInterrupt = true := by rw [State.takesInterrupt, hpending, haccept]; rfl
  have hentry : TookException .int s.pc none s.arrive s.arrive.interrupt := tookException_interrupt s.arrive
  exact ⟨_, step_of_takesInterrupt htakes, hentry, hentry.ecode, hentry.esubcode, hentry.pc⟩

/-! ## Arbitration (R148) -/

/-- Every interrupt has its place in the order of R148. -/
theorem mem_byPriority (i : Interrupt) : i ∈ Interrupt.byPriority := by
  cases i with
  | swi k => revert k; decide
  | hwi k => revert k; decide
  | ti => decide
  | ipi => decide

/-- The order of R148 goes down in the interrupt numbers. -/
theorem byPriority_pairwise : Interrupt.byPriority.Pairwise fun i j => j.number ≤ i.number := by decide

/-- R148: the selected interrupt is pending and enabled, and none that is has a larger number: it would stand before the
selected one, where the search found none. -/
theorem largest_of_arbitrate_eq_some {v : IntVec} {i : Interrupt} (h : arbitrate v = some i) :
    v.getLsbD i.number = true ∧ ∀ j : Interrupt, v.getLsbD j.number = true → j.number ≤ i.number := by
  obtain ⟨hi, before, after, hsplit, hbefore⟩ := List.find?_eq_some_iff_append.mp h
  refine ⟨hi, fun j hj => ?_⟩
  obtain ⟨-, hselected, -⟩ := List.pairwise_append.mp (hsplit ▸ byPriority_pairwise)
  obtain ⟨hafter, -⟩ := List.pairwise_cons.mp hselected
  have hmem : j ∈ before ++ i :: after := hsplit ▸ mem_byPriority j
  obtain hmem | hmem := List.mem_append.mp hmem
  · exact absurd hj (by simpa using hbefore j hmem)
  · obtain rfl | hmem := List.mem_cons.mp hmem
    · exact Nat.le_refl _
    · exact hafter j hmem

/-- R148: nothing is selected exactly if no interrupt is pending and enabled. -/
theorem arbitrate_eq_none_iff {v : IntVec} : arbitrate v = none ↔ ∀ j : Interrupt, v.getLsbD j.number = false := by
  simp [arbitrate, mem_byPriority]

/-- Every number below 13 but 10 is an interrupt's (R143). -/
theorem exists_number_eq {k : Nat} (hk : k < 13) (h10 : k ≠ 10) : ∃ i : Interrupt, i.number = k := by
  obtain h | h | rfl | rfl : k < 2 ∨ (2 ≤ k ∧ k < 10) ∨ k = 11 ∨ k = 12 := by omega
  · exact ⟨.swi ⟨k, h⟩, rfl⟩
  · exact ⟨.hwi ⟨k - 2, by omega⟩, by simp only [Interrupt.number]; omega⟩
  · exact ⟨.ti, rfl⟩
  · exact ⟨.ipi, rfl⟩

/-- Every bit of the vector but the unused bit 10 is an interrupt's, so a vector that is not 0 has an interrupt to select. -/
theorem exists_arbitrate_intVec {s : State} (h : s.intVec ≠ 0#13) : ∃ i, arbitrate s.intVec = some i := by
  apply Option.ne_none_iff_exists'.mp
  refine fun hnone => h (BitVec.eq_of_getLsbD_eq fun k hk => ?_)
  rw [BitVec.getLsbD_zero]
  by_cases h10 : k = 10
  · rw [h10, getLsbD_intVec_ten]
  · obtain ⟨i, rfl⟩ := exists_number_eq hk h10
    exact arbitrate_eq_none_iff.mp hnone i

/-- R144, R160: no exception entry changes what is pending. -/
@[simp] theorem isVec_trap (s : State) (e : Exception) (epc badv : Word) : (s.trap e epc badv).isVec = s.isVec := by
  simp only [isVec_eq_append, State.trap_lines, State.trap_timer, State.trap_estat]

/-- Settles O43. The order of R148 goes down in the numbers, so the first interrupt found has the largest; taking an
interrupt is the exception entry, in which the selected one does not occur. -/
theorem largestInterruptNumberWins : Obligations.LargestInterruptNumberWins := by
  unfold Obligations.LargestInterruptNumberWins
  refine ⟨fun v i h => largest_of_arbitrate_eq_some h, fun v h => arbitrate_eq_none_iff.mp h, fun s htakes => ?_⟩
  have hpending : s.arrive.intPending = true := (Bool.and_eq_true_iff.mp htakes).1
  obtain ⟨i, hi⟩ := exists_arbitrate_intVec ((intPending_iff s.arrive).mp hpending).2
  have hentry : TookException .int s.pc none s.arrive s.arrive.interrupt := tookException_interrupt s.arrive
  exact ⟨i, _, hi, step_of_takesInterrupt htakes, hentry.pc, hentry.ecode, hentry.esubcode, isVec_trap s.arrive _ _ _⟩

end Sys2Proof
end

section
/-! PROOFS. Simultaneous events on one instruction, and the one a step takes (R150, R151). -/

namespace Sys2Proof

open Machine Safety

/-! ## The exceptions an instruction asks for (R141) -/

/-- An instruction asks for no exception, or for exactly one: it is detected after the fetch, so it ranks below the
interrupt and ADEF, and to execute the instruction is to take it. -/
def AsksForAtMostOne (i : Instr) (s : State) : Prop :=
  instrEvents i s = [] ∨
    ∃ p n b, instrEvents i s = [p] ∧ Exception.rank p.1 p.2 = some n ∧ 4 ≤ n ∧ exec i s = .next (s.trap p.2 s.pc b)

/-- One check decides whether `i` asks for `p`, and where the check fails, executing `i` takes `p`. -/
theorem asksForAtMostOne_of_ite {i : Instr} {s : State} {c : Prop} [Decidable c] {p : Stage × Exception} {n : Nat}
    {b : Word} (hevents : instrEvents i s = if c then [] else [p]) (hrank : Exception.rank p.1 p.2 = some n) (hn : 4 ≤ n)
    (hexec : ¬ c → exec i s = .next (s.trap p.2 s.pc b)) : AsksForAtMostOne i s := by
  by_cases hc : c
  · exact .inl (hevents.trans (if_pos hc))
  · exact .inr ⟨p, n, b, hevents.trans (if_neg hc), hrank, hn, hexec hc⟩

/-- The privilege check of R105 and R110 is the one thing a privileged instruction asks for. -/
theorem asksForAtMostOne_of_privileged {i : Instr} {s : State} {k : Host.Outcome State Fault Refusal}
    (hevents : instrEvents i s = if s.crmd.plv = 0#2 then [] else [(.decode, .ipe)]) (hexec : exec i s = s.privileged k) :
    AsksForAtMostOne i s :=
  asksForAtMostOne_of_ite hevents rfl (Nat.le_refl 4) fun hplv => hexec.trans (privileged_of_plv_ne hplv k)

/-- The alignment check is the first of a write, as of a read (R64). -/
theorem memWrite_of_misaligned {addr : Word} {n : Nat} (h : addr.toNat % n ≠ 0) (s : State) (v : BitVec (8 * n)) :
    s.memWrite addr n v = .raise .ale addr := by
  rw [State.memWrite, checkAlign_of_misaligned h, Result.andThen]
  rfl

theorem exec_ldw_of_misaligned {rd rj : Reg} {si12 : BitVec 12} {s : State}
    (h : (s.readReg rj + si12.signExtend 32).toNat % 4 ≠ 0) :
    exec (.ldw rd rj si12) s = .next (s.trap .ale s.pc (s.readReg rj + si12.signExtend 32)) := by
  rw [exec_ldw, memRead_of_misaligned h]
  rfl

/-- ST.W writes at the effective address and ends as that write ends. -/
theorem exec_stw (rd rj : Reg) (si12 : BitVec 12) (s : State) :
    exec (.stw rd rj si12) s = (s.memWrite (s.readReg rj + si12.signExtend 32) 4 (s.readReg rd)).finish s
      fun t => .next t.advance := rfl

theorem exec_stw_of_misaligned {rd rj : Reg} {si12 : BitVec 12} {s : State}
    (h : (s.readReg rj + si12.signExtend 32).toNat % 4 ≠ 0) :
    exec (.stw rd rj si12) s = .next (s.trap .ale s.pc (s.readReg rj + si12.signExtend 32)) := by
  rw [exec_stw, memWrite_of_misaligned h]
  rfl

/-- Each instruction has one check that can fail (its level or its alignment), none, or always the same exception. -/
theorem asksForAtMostOne (i : Instr) (s : State) : AsksForAtMostOne i s := by
  cases i with
  | csrrd rd csr => exact asksForAtMostOne_of_privileged rfl rfl
  | csrwr rd csr => exact asksForAtMostOne_of_privileged rfl rfl
  | csrxchg rd rj csr => exact asksForAtMostOne_of_privileged rfl rfl
  | ertn => exact asksForAtMostOne_of_privileged rfl rfl
  | ori => exact .inl rfl
  | lu12iw => exact .inl rfl
  | andn => exact .inl rfl
  | or => exact .inl rfl
  | ldw rd rj si12 => exact asksForAtMostOne_of_ite rfl rfl (by decide) exec_ldw_of_misaligned
  | stw rd rj si12 => exact asksForAtMostOne_of_ite rfl rfl (by decide) exec_stw_of_misaligned
  | syscall => exact .inr ⟨_, 4, _, rfl, rfl, Nat.le_refl 4, rfl⟩
  | brk => exact .inr ⟨_, 4, _, rfl, rfl, Nat.le_refl 4, rfl⟩

/-! ## All events of a step (R151) -/

theorem mem_events_iff {accepts : Bool} {s : State} {q : Stage × Exception} :
    q ∈ events accepts s ↔
      (∃ i, instrAtPc s = some i ∧ q ∈ instrEvents i s) ∨ (s.pc.toNat % 4 ≠ 0 ∧ q = (.fetch, .adef)) ∨
        ((accepts && s.intPending) = true ∧ q = (.marked, .int)) := by
  rw [events, List.mem_append, List.mem_append, or_assoc]
  refine or_congr ?_ (or_congr ?_ ?_)
  · cases instrAtPc s <;> simp
  · by_cases hpc : s.pc.toNat % 4 = 0 <;> simp [hpc]
  · cases accepts && s.intPending <;> simp

/-- Every event that can apply has a rank, and only the interrupt has rank 1. -/
theorem rank_of_mem_events {accepts : Bool} {s : State} {q : Stage × Exception} (h : q ∈ events accepts s) :
    ∃ n, Exception.rank q.1 q.2 = some n ∧ 1 ≤ n ∧ ((accepts && s.intPending) = false → 2 ≤ n) := by
  obtain ⟨i, -, hq⟩ | ⟨-, rfl⟩ | ⟨hint, rfl⟩ := mem_events_iff.mp h
  · obtain hnil | ⟨p, n, b, hone, hrank, hn, -⟩ := asksForAtMostOne i s
    · rw [hnil] at hq
      cases hq
    · rw [hone, List.mem_singleton] at hq
      subst hq
      exact ⟨n, hrank, by omega, fun _ => by omega⟩
  · exact ⟨2, rfl, by decide, fun _ => by decide⟩
  · exact ⟨1, rfl, by decide, fun hno => by rw [hint] at hno; cases hno⟩

/-- R151, rank 1: an accepted interrupt is first whatever else applies. -/
theorem firstEvent_int {accepts : Bool} {s : State} (h : (accepts && s.intPending) = true) :
    FirstEvent (events accepts s) (.marked, .int) := by
  refine ⟨mem_events_iff.mpr (.inr (.inr ⟨h, rfl⟩)), fun q hq => ?_⟩
  obtain ⟨n, hn, hone, -⟩ := rank_of_mem_events hq
  exact ⟨1, n, rfl, hn, hone⟩

/-- R151, rank 2: the fetch address error is first when no interrupt is accepted. -/
theorem firstEvent_adef {accepts : Bool} {s : State} (hno : (accepts && s.intPending) = false) (h : s.pc.toNat % 4 ≠ 0) :
    FirstEvent (events accepts s) (.fetch, .adef) := by
  refine ⟨mem_events_iff.mpr (.inr (.inl ⟨h, rfl⟩)), fun q hq => ?_⟩
  obtain ⟨n, hn, -, htwo⟩ := rank_of_mem_events hq
  exact ⟨2, n, rfl, hn, htwo hno⟩

theorem firstEvent_singleton {p : Stage × Exception} {n : Nat} (h : Exception.rank p.1 p.2 = some n) :
    FirstEvent [p] p := by
  refine ⟨List.mem_singleton_self p, fun q hq => ?_⟩
  rw [List.mem_singleton.mp hq]
  exact ⟨n, n, h, h, Nat.le_refl n⟩

/-- The instruction a fetch leads to is the one that stands at the pc. -/
theorem instrAtPc_of_fetch {s : State} {w : Word} {i : Instr} (hw : s.fetch = .ok w) (hi : decodeWord w = .ok i) :
    instrAtPc s = some i := by
  obtain ⟨hread, -⟩ := State.fetch_ok hw
  obtain ⟨-, -, -, -, hbytes⟩ := State.memRead_ok hread
  simp only [instrAtPc, hbytes, hi]

/-- Past the interrupt decision and the fetch, the only events left are those the instruction asks for. -/
theorem events_of_fetch {accepts : Bool} {s : State} {w : Word} {i : Instr} (hno : (accepts && s.intPending) = false)
    (hw : s.fetch = .ok w) (hi : decodeWord w = .ok i) : events accepts s = instrEvents i s := by
  obtain ⟨hread, -⟩ := State.fetch_ok hw
  obtain ⟨haligned, -⟩ := State.memRead_ok hread
  simp [events, instrAtPc_of_fetch hw hi, haligned, hno]

/-- Settles O41. The order of the decisions in a step is the order of R151: an accepted interrupt outranks all, a misaligned
pc all but it, and past both the instruction's own exception is the only event. -/
theorem firstRankedEventIsTaken : Obligations.FirstRankedEventIsTaken := by
  unfold Obligations.FirstRankedEventIsTaken
  intro s t hstep
  have hdecision : (s.nextInput.accept && s.arrive.intPending) = s.takesInterrupt := Bool.and_comm _ _
  obtain ⟨htakes, rfl⟩ | ⟨hno, hmis, rfl⟩ | ⟨hno, w, i, hw, hi, hexec⟩ := step_cases hstep
  · have hfirst := firstEvent_int (hdecision.trans htakes)
    exact ⟨fun _ => ⟨_, none, hfirst, tookException_interrupt s.arrive⟩,
      fun hnil => absurd hnil (List.ne_nil_of_mem hfirst.1)⟩
  · have hfirst := firstEvent_adef (hdecision.trans hno) hmis
    exact ⟨fun _ => ⟨_, some s.pc, hfirst, tookException_trap .adef s.pc s.pc s.arrive⟩,
      fun hnil => absurd hnil (List.ne_nil_of_mem hfirst.1)⟩
  · rw [events_of_fetch (hdecision.trans hno) hw hi]
    refine ⟨fun hsome => ?_, fun hnil => ⟨w, i, hw, hi, hnil, hexec⟩⟩
    obtain hnil | ⟨p, n, b, hone, hrank, -, htrap⟩ := asksForAtMostOne i s.arrive
    · exact absurd hnil hsome
    · rw [htrap] at hexec
      obtain rfl : s.arrive.trap p.2 s.pc b = t := Host.Outcome.next.inj hexec
      rw [hone]
      exact ⟨p, _, firstEvent_singleton hrank, tookException_trap p.2 s.pc b s.arrive⟩

end Sys2Proof
end

section
/-! PROOFS. The values the machine holds at reset release (R200): the CSR words that read at reset and the mapping windows. -/

namespace Sys2Proof

open Machine

/-- CRMD at reset has DA set and nothing else. -/
theorem csrRead_crmd_reset : csrRead .crmd State.reset = 0x00000008#32 := by decide

/-- No interrupt is enabled at reset: both fields of LIE, and with them the word, are 0. -/
theorem csrRead_ecfg_reset : csrRead .ecfg State.reset = 0#32 := by decide

/-- Every window starts out as the same one, open at no privilege level. -/
theorem reset_dmw (i : Fin Config.numDmw) :
    State.reset.dmw[i] = { plv0 := false, plv3 := false, mat := 0#2, pseg := 0#3, vseg := 0#3 } :=
  Vector.getElem_replicate i.isLt

/-- Settles O56. The fields are those `State.reset` gives; the two CSR words and the windows have lemmas of their own. -/
theorem resetState : Obligations.ResetState := by
  unfold Obligations.ResetState
  have hwindows (i : Fin Config.numDmw) : State.reset.dmw[i].plv0 = false ∧ State.reset.dmw[i].plv3 = false := by
    rw [reset_dmw]
    exact ⟨rfl, rfl⟩
  exact ⟨rfl, rfl, rfl, rfl, rfl, rfl, rfl, csrRead_crmd_reset, rfl, csrRead_ecfg_reset, rfl, rfl, rfl, hwindows⟩

end Sys2Proof
end

section
/-! PROOFS. Fields of a word against fields placed in one (R6): what a field of a placed field is, and which bits placing a
field keeps. -/

namespace Sys2Proof

open Machine

@[simp] theorem field_or (v w : Word) (lo n : Nat) : field (v ||| w) lo n = field v lo n ||| field w lo n :=
  BitVec.extractLsb'_or

@[simp] theorem bit_or (v w : Word) (i : Nat) : bit (v ||| w) i = (bit v i || bit w i) := BitVec.getLsbD_or

/-- A placed field reads back at its place. -/
@[simp] theorem field_place_self {n : Nat} (v : BitVec n) (lo : Nat) (h : lo + n ≤ 32) : field (place v lo) lo n = v := by
  apply BitVec.eq_of_getElem_eq
  intro j hj
  simp [show lo + j < 32 by omega, place, BitVec.getLsbD_eq_getElem hj]

/-- A placed field leaves the bits beside it 0. -/
@[simp] theorem field_place_of_disjoint {n : Nat} (v : BitVec n) (lo lo' m : Nat) (h : lo' + m ≤ lo ∨ lo + n ≤ lo') :
    field (place v lo) lo' m = 0#m := by
  apply BitVec.eq_of_getElem_eq
  intro j hj
  rw [getElem_field, BitVec.getElem_zero]
  by_cases hlo : lo ≤ lo' + j
  · simp [place, BitVec.getLsbD_of_ge v (lo' + j - lo) (by omega)]
  · simp [place, Nat.lt_of_not_le hlo]

/-- A bit of a placed field. -/
@[simp] theorem bit_place {n : Nat} (v : BitVec n) (lo i : Nat) (h : i < 32) :
    bit (place v lo) i = (!decide (i < lo) && v.getLsbD (i - lo)) := by
  rw [bit_eq_getElem _ _ h, getElem_place]

@[simp] theorem bit_placeBit (b : Bool) (i j : Nat) (h : j < 32) : bit (placeBit b i) j = (decide (j = i) && b) := by
  rw [bit_eq_getElem _ _ h, getElem_placeBit]

@[simp] theorem field_placeBit_of_disjoint (b : Bool) (i lo n : Nat) (h : lo + n ≤ i ∨ i < lo) :
    field (placeBit b i) lo n = 0#n := field_place_of_disjoint _ _ _ _ h

/-- A field of a word, placed where it stood, is the word under the field's mask. -/
theorem place_field (w : Word) (lo n : Nat) :
    place (field w lo n) lo = w &&& (BitVec.allOnes n).setWidth 32 <<< lo := by
  apply BitVec.eq_of_getElem_eq
  intro j hj
  by_cases hlo : j < lo
  · simp [place, BitVec.getElem_shiftLeft, hlo]
  · by_cases hn : j - lo < n
    · simp [place, BitVec.getElem_shiftLeft, hlo, hn, field, show lo + (j - lo) = j by omega, BitVec.getLsbD_eq_getElem hj]
    · simp [place, BitVec.getElem_shiftLeft, hlo, hn, field]

/-- A bit of a word, placed where it stood, is the word under the bit's mask. -/
theorem placeBit_bit (w : Word) (i : Nat) : placeBit (bit w i) i = w &&& 1#32 <<< i := by
  have : BitVec.ofBool (bit w i) = field w i 1 := by
    apply BitVec.eq_of_getElem_eq
    intro j hj
    obtain rfl : j = 0 := by omega
    simp [bit]
  rw [placeBit, this, place_field w i 1]
  rfl

end Sys2Proof
end

section
/-! PROOFS. The decoder and the encoder against each other (R81, R84): rows that clash, the fields of an instruction read
back from its word, and a word built again from its fields. -/

namespace Sys2Proof

open Machine

/-! ## Rows that no word can share -/

/-- Two rows demand different values of a bit that both test. -/
def rowsClash (r q : OpcodeRow) : Bool := r.pattern &&& q.mask != q.pattern &&& r.mask

theorem rowHits_eq_false_of_rowsClash {r q : OpcodeRow} {w : Word} (hr : rowHits r w = true) (h : rowsClash r q = true) :
    rowHits q w = false := by
  rw [← Bool.not_eq_true]
  intro hq
  rw [rowHits_iff] at hr hq
  refine bne_iff_ne.mp h ?_
  rw [← hr, ← hq, BitVec.and_assoc, BitVec.and_assoc, BitVec.and_comm r.mask]

/-- R84 with R82: two rows of the map clash, but for CSRXCHG's with those of CSRRD and CSRWR. -/
theorem rowsClash_or_csr : ∀ r ∈ opcodeTable, ∀ q ∈ opcodeTable, r ≠ q →
    rowsClash r q = true ∨ (r = rowCsrxchg ∧ (q = rowCsrrd ∨ q = rowCsrwr)) ∨
      (q = rowCsrxchg ∧ (r = rowCsrrd ∨ r = rowCsrwr)) := by
  decide

/-- Settles O5. A word that matches two rows shows that they do not clash. -/
theorem opcodeRowsAreDisjoint : Obligations.OpcodeRowsAreDisjoint := by
  unfold Obligations.OpcodeRowsAreDisjoint
  intro w r q hr hq hne hwr hwq
  obtain hclash | hcsr := rowsClash_or_csr r hr q hq hne
  · have hmiss := rowHits_eq_false_of_rowsClash (rowHits_iff.mpr hwr) hclash
    rw [rowHits_iff.mpr hwq] at hmiss
    cases hmiss
  · exact hcsr

/-! ## The fields of a word -/

/-- The instruction of `i`'s kind whose operands are the fields of the word `w` (R81). -/
def Instr.withFieldsOf (w : Word) : Instr → Instr
  | .csrrd _ _ => .csrrd (fieldRd w) (fieldCsr w)
  | .csrwr _ _ => .csrwr (fieldRd w) (fieldCsr w)
  | .csrxchg _ _ _ => .csrxchg (fieldRd w) (fieldRj w) (fieldCsr w)
  | .ertn => .ertn
  | .ori _ _ _ => .ori (fieldRd w) (fieldRj w) (fieldI12 w)
  | .lu12iw _ _ => .lu12iw (fieldRd w) (fieldI20 w)
  | .andn _ _ _ => .andn (fieldRd w) (fieldRj w) (fieldRk w)
  | .or _ _ _ => .or (fieldRd w) (fieldRj w) (fieldRk w)
  | .ldw _ _ _ => .ldw (fieldRd w) (fieldRj w) (fieldI12 w)
  | .stw _ _ _ => .stw (fieldRd w) (fieldRj w) (fieldI12 w)
  | .syscall _ => .syscall (fieldCode w)
  | .brk _ => .brk (fieldCode w)

/-- Every field of a format is placed where the decoder reads it. -/
theorem withFieldsOf_encode (i : Instr) : i.withFieldsOf (encode i) = i := by
  cases i <;>
    simp [Instr.withFieldsOf, encode, formatCsr, format3R, format2RI12, format1RI20, formatCode15, fieldRd, fieldRj,
      fieldRk, fieldCsr, fieldI12, fieldI20, fieldCode]

/-- The decoder takes the operands of what it decodes from the fields of the word. -/
theorem withFieldsOf_of_decodeWord {w : Word} {i : Instr} (h : decodeWord w = .ok i) : i.withFieldsOf w = i := by
  revert h
  fun_cases decodeWord w <;> rintro ⟨⟩ <;> rfl

/-- The `rj` field is one of those the rows of CSRRD and CSRWR test. -/
theorem fieldRj_and_csrMask (w : Word) : fieldRj (w &&& rowCsrrd.mask) = fieldRj w := by
  apply BitVec.eq_of_getElem_eq
  intro j hj
  interval_cases j <;> simp [fieldRj, rowCsrrd]

theorem fieldRj_of_rowHits_csrrd {w : Word} (h : rowHits rowCsrrd w = true) : fieldRj w = 0#5 := by
  rw [← fieldRj_and_csrMask, rowHits_iff.mp h]
  decide

theorem fieldRj_of_rowHits_csrwr {w : Word} (h : rowHits rowCsrwr w = true) : fieldRj w = 1#5 := by
  rw [← fieldRj_and_csrMask, show w &&& rowCsrrd.mask = rowCsrwr.pattern from rowHits_iff.mp h]
  decide

/-- R82: a word whose `rj` field can be a mask register lies in neither CSRRD's row nor CSRWR's. -/
theorem csr_rowHits_eq_false_of_maskRegisterOk {w : Word} (h : maskRegisterOk (fieldRj w) = true) :
    rowHits rowCsrrd w = false ∧ rowHits rowCsrwr w = false := by
  constructor
  · rw [← Bool.not_eq_true]
    intro hrow
    rw [fieldRj_of_rowHits_csrrd hrow] at h
    exact absurd h (by decide)
  · rw [← Bool.not_eq_true]
    intro hrow
    rw [fieldRj_of_rowHits_csrwr hrow] at h
    exact absurd h (by decide)

/-- A word in the row of an instruction decodes to the instruction of that row, its operands the fields of the word: the
rows tested before clash with it, and for CSRXCHG the test of `rj` keeps the two that do not away. -/
theorem decodeWord_of_rowHits {i : Instr} {w : Word} (h : rowHits (rowOf i) w = true)
    (hrj : rowOf i = rowCsrxchg → maskRegisterOk (fieldRj w) = true) : decodeWord w = .ok (i.withFieldsOf w) := by
  cases i
  case csrxchg =>
    obtain ⟨hrd, hwr⟩ := csr_rowHits_eq_false_of_maskRegisterOk (hrj rfl)
    have hrow : rowHits rowCsrxchg w = true := h
    simp [decodeWord, hrd, hwr, hrow, hrj rfl, Instr.withFieldsOf]
  all_goals
    rw [rowOf] at h
    simp (disch := decide) [decodeWord, rowHits_eq_false_of_rowsClash h, h, Instr.withFieldsOf]

/-! ## Decoding what was encoded -/

/-- The encoding of a well-formed instruction lies in the instruction's row. -/
theorem rowHits_encode {i : Instr} (h : i.wellFormed = true) : rowHits (rowOf i) (encode i) = true := by
  cases i with
  | csrrd rd csr => exact Laws.EncodesIntoRow.csrrd rd csr h
  | csrwr rd csr => exact Laws.EncodesIntoRow.csrwr rd csr h
  | csrxchg rd rj csr => exact Laws.EncodesIntoRow.csrxchg rd rj csr h
  | ertn => exact Laws.EncodesIntoRow.ertn h
  | ori rd rj ui12 => exact Laws.EncodesIntoRow.ori rd rj ui12 h
  | lu12iw rd si20 => exact Laws.EncodesIntoRow.lu12iw rd si20 h
  | andn rd rj rk => exact Laws.EncodesIntoRow.andn rd rj rk h
  | or rd rj rk => exact Laws.EncodesIntoRow.or rd rj rk h
  | ldw rd rj si12 => exact Laws.EncodesIntoRow.ldw rd rj si12 h
  | stw rd rj si12 => exact Laws.EncodesIntoRow.stw rd rj si12 h
  | syscall code => exact Laws.EncodesIntoRow.syscall code h
  | brk code => exact Laws.EncodesIntoRow.brk code h

/-- Of the rows, CSRXCHG's alone stands for instructions that need not be well formed, and its check is on `rj` (R82). -/
theorem wellFormed_iff {i : Instr} :
    i.wellFormed = true ↔ (rowOf i = rowCsrxchg → maskRegisterOk (fieldRj (encode i)) = true) := by
  cases i
  case csrxchg rd rj csr =>
    have hfields := withFieldsOf_encode (.csrxchg rd rj csr)
    simp only [Instr.withFieldsOf, Instr.csrxchg.injEq] at hfields
    simp [Instr.wellFormed, rowOf, hfields]
  all_goals exact ⟨fun _ hr => absurd hr (by simp only [rowOf]; decide), fun _ => rfl⟩

theorem decodeWord_encode {i : Instr} (h : i.wellFormed = true) : decodeWord (encode i) = .ok i := by
  rw [decodeWord_of_rowHits (rowHits_encode h) (wellFormed_iff.mp h), withFieldsOf_encode]

/-- The bytes of a word that decodes, laid out in memory order (R80), decode to the same and leave the bytes after them. -/
theorem decodeBytes_wordBytes_append {w : Word} {i : Instr} (h : decodeWord w = .ok i) (rest : List Byte) :
    decodeBytes (wordBytes w ++ rest) = .ok (i, rest) := by
  simp only [wordBytes, List.cons_append, List.nil_append, decodeBytes, ofBytes_byteOf, h]

/-- Settles O2. The encoding lies in the instruction's row, so it decodes to that row's instruction with the fields of the
word, and those are the operands that were placed there. -/
theorem decodeOfEncodeIsIdentity : Obligations.DecodeOfEncodeIsIdentity := by
  unfold Obligations.DecodeOfEncodeIsIdentity
  exact fun i rest h => decodeBytes_wordBytes_append (decodeWord_encode h) rest

/-! ## Encoding what was decoded -/

/-- The encoder puts the fields of a word where they were, and the row's pattern on the bits the row tests. -/
theorem encode_withFieldsOf {i : Instr} {w : Word} (h : rowHits (rowOf i) w = true) : encode (i.withFieldsOf w) = w := by
  have hw : w = (rowOf i).pattern ||| (w &&& ~~~(rowOf i).mask) := by
    rw [← rowHits_iff.mp h, ← BitVec.and_or_distrib_left, BitVec.or_not_self, BitVec.and_allOnes]
  conv_rhs => rw [hw]
  cases i <;>
    simp only [Instr.withFieldsOf, encode, formatCsr, format3R, format2RI12, format1RI20, formatCode15, fieldRd, fieldRj,
      fieldRk, fieldCsr, fieldI12, fieldI20, fieldCode, place_field, BitVec.or_assoc, ← BitVec.and_or_distrib_left, rowOf]
  case ertn => simp [rowErtn]
  case csrrd | csrwr =>
    rw [← BitVec.or_assoc (w &&& _), BitVec.or_comm (w &&& _), BitVec.or_assoc, ← BitVec.and_or_distrib_left,
      ← BitVec.or_assoc]
    rfl
  all_goals rfl

/-- Settles O3. The decoded word lies in the row of its instruction and gave the operands, so they build it again. -/
theorem encodeOfDecodeIsIdentity : Obligations.EncodeOfDecodeIsIdentity := by
  unfold Obligations.EncodeOfDecodeIsIdentity
  intro w i h
  obtain ⟨hrow, hrj⟩ := rowHits_of_decodeWord_eq_ok h
  have hencode : encode i = w := by
    rw [← withFieldsOf_of_decodeWord h]
    exact encode_withFieldsOf hrow
  exact ⟨hencode, wellFormed_iff.mpr (hencode ▸ hrj)⟩

/-- Settles O1. Each word is run through the decoder. -/
theorem tableWordsDecode : Obligations.TableWordsDecode := by
  unfold Obligations.TableWordsDecode
  decide

end Sys2Proof
end

section
/-! PROOFS. The timer (R170): counting down, the tick after zero, and what ticks never change. -/

namespace Sys2Proof

open Machine Safety

theorem ticks_succ_last (t : Timer) (n : Nat) : t.ticks (n + 1) = (t.ticks n).tick := Timer.ticks_add t n 1

/-- A timer that is disabled or stopped holds, however many ticks come. -/
theorem ticks_of_idle {t : Timer} (h : t.en = false ∨ t.running = false) (n : Nat) : t.ticks n = t := by
  induction n with
  | zero => rfl
  | succ n ih => rw [Timer.ticks_succ, Timer.tick_idle t h, ih]

/-- What a tick can do: nothing, one down, a reload, or a stop. -/
theorem tick_cases (t : Timer) :
    t.tick = t ∨
    (t.val ≠ 0#32 ∧ t.tick = { t with val := t.val - 1#32, int := t.int || t.val - 1#32 == 0#32 }) ∨
    t.tick = { t with val := initCount t.initVal } ∨ t.tick = { t with running := false } := by
  by_cases hidle : t.en = false ∨ t.running = false
  · exact .inl (Timer.tick_idle t hidle)
  · obtain ⟨hen, hrun⟩ : t.en = true ∧ t.running = true := by simpa using hidle
    by_cases hval : t.val = 0#32
    · rw [Timer.tick_zero t hen hrun hval]
      split
      · exact .inr (.inr (.inl rfl))
      · exact .inr (.inr (.inr rfl))
    · exact .inr (.inl ⟨hval, Timer.tick_down t hen hrun hval⟩)

theorem tick_int {t : Timer} (h : t.int = true) : t.tick.int = true := by
  obtain h' | ⟨-, h'⟩ | h' | h' := tick_cases t <;> rw [h'] <;> simp [h]

theorem ticks_int {t : Timer} (h : t.int = true) (n : Nat) : (t.ticks n).int = true := by
  induction n with
  | zero => exact h
  | succ n ih => rw [ticks_succ_last]; exact tick_int ih

/-- Settles O49. Both facts hold of one tick, and so of every number of them. -/
theorem timerHoldsAndLatchStays : Obligations.TimerHoldsAndLatchStays := by
  unfold Obligations.TimerHoldsAndLatchStays
  exact fun t n => ⟨fun hidle => ticks_of_idle hidle n, fun hint => ticks_int hint n⟩

/-- As long as the count lasts, every tick takes one off it, and the tick that takes the last one sets the latch. -/
theorem ticks_down {t : Timer} (hen : t.en = true) (hrun : t.running = true) {m : Nat} (hm : m ≤ t.val.toNat) :
    t.ticks m = { t with
      val := t.val - BitVec.ofNat 32 m
      int := t.int || (decide (0 < t.val.toNat) && decide (m = t.val.toNat)) } := by
  induction m with
  | zero =>
    have hnone : ¬ (0 < t.val.toNat ∧ 0 = t.val.toNat) := by omega
    simp [← Bool.decide_and, hnone]
  | succ m ih =>
    have hval : t.val - BitVec.ofNat 32 m ≠ 0#32 := by bv_omega
    have hnext : t.val - BitVec.ofNat 32 m - 1#32 = t.val - BitVec.ofNat 32 (m + 1) := by bv_omega
    have hzero : (t.val - BitVec.ofNat 32 (m + 1) == 0#32) = decide (m + 1 = t.val.toNat) := by
      rw [Bool.eq_iff_iff, beq_iff_eq, decide_eq_true_iff]
      constructor <;> intro h <;> bv_omega
    rw [ticks_succ_last, ih (by omega), Timer.tick_down _ (by exact hen) (by exact hrun) (by exact hval)]
    simp [hnext, hzero, show m ≠ t.val.toNat by omega, show 0 < t.val.toNat by omega]

/-- Settles O47. The timer after `m` ticks is `ticks_down`'s, field by field. -/
theorem timerCountsDownToInterrupt : Obligations.TimerCountsDownToInterrupt := by
  unfold Obligations.TimerCountsDownToInterrupt
  intro t m hen hrun hm
  rw [ticks_down hen hrun hm]
  exact ⟨by bv_omega, rfl, hrun, hen, rfl, rfl⟩

/-- The tick after the count has reached zero is `tick_zero`'s, at whatever the latch then is. -/
theorem ticks_past_zero {t : Timer} (hen : t.en = true) (hrun : t.running = true) :
    t.ticks (t.val.toNat + 1) =
      if t.periodic then { t with val := initCount t.initVal, int := (t.ticks t.val.toNat).int }
      else { t with val := 0#32, int := (t.ticks t.val.toNat).int, running := false } := by
  have hdown := ticks_down hen hrun (Nat.le_refl t.val.toNat)
  have hval : t.val - BitVec.ofNat 32 t.val.toNat = 0#32 := by simp
  rw [hval] at hdown
  rw [ticks_succ_last, hdown, Timer.tick_zero _ (by exact hen) (by exact hrun) rfl]

theorem toNat_initCount (initVal : BitVec 30) : (initCount initVal).toNat = 4 * initVal.toNat := by
  simp only [initCount, place, BitVec.toNat_shiftLeft, BitVec.toNat_setWidth, Nat.shiftLeft_eq]
  omega

/-- Settles O48. The tick past zero keeps the latch; it reloads a periodic timer, and a one-shot timer is idle after it. -/
theorem timerReloadsOrStops : Obligations.TimerReloadsOrStops := by
  unfold Obligations.TimerReloadsOrStops
  intro t hen hrun
  have hpast := ticks_past_zero hen hrun
  refine ⟨fun hper => ?_, fun hshot => ?_, ?_⟩
  · rw [hpast, if_pos hper]
    exact ⟨toNat_initCount t.initVal, hrun⟩
  · have hstop : (t.ticks (t.val.toNat + 1)).running = false := by rw [hpast, hshot]; rfl
    exact ⟨hstop, fun m => by rw [Timer.ticks_add, ticks_of_idle (.inr hstop)]⟩
  · rw [hpast]
    split <;> rfl

end Sys2Proof
end

section
/-! PROOFS. The CSR space (R13 to R31): the numbers of the CSRs, and the layout of the words they read as. -/

namespace Sys2Proof

open Machine Safety

/-! ## CSR numbers (R14) -/

theorem ofNumber_number (c : Csr) : Csr.ofNumber c.number = some c := by
  cases c
  case dmw i => revert i; decide
  case save i => revert i; decide
  all_goals rfl

theorem number_of_ofNumber {n : CsrNumber} {c : Csr} (h : Csr.ofNumber n = some c) : c.number = n := by
  revert h
  fun_cases Csr.ofNumber n <;> rintro ⟨⟩
  case case14 hrange =>
    apply BitVec.eq_of_toNat_eq
    simp only [Csr.number, BitVec.toNat_ofNat]
    omega
  case case15 hrange =>
    apply BitVec.eq_of_toNat_eq
    simp only [Csr.number, BitVec.toNat_ofNat]
    omega
  all_goals (symm; assumption)

/-- Settles O28. `ofNumber` inverts the numbers of the table. -/
theorem csrNumbersAreUnique : Obligations.CsrNumbersAreUnique := by
  unfold Obligations.CsrNumbersAreUnique
  exact ⟨by decide, by decide, by decide, ofNumber_number, fun _ _ => number_of_ofNumber⟩

/-! ## Layout (R16 to R29) -/

/-- Settles O29. A word is a join of placed fields, so a field of it is the field placed there, and 0 where none is. -/
theorem exceptionCsrLayout : Obligations.ExceptionCsrLayout := by
  unfold Obligations.ExceptionCsrLayout
  intro s
  refine ⟨?crmd, ?prmd, ?euen, ?ecfg, ?estat, rfl, rfl, ?eentry, ?tlbrentry⟩
  case crmd => simp [csrRead, Crmd.toWord]
  case prmd => simp [csrRead, Prmd.toWord]
  case euen => simp [csrRead]
  case ecfg => simp [csrRead, Ecfg.toWord]
  case estat => simp [csrRead, estatWord]
  case eentry => simp [csrRead, State.eentryAddr]
  case tlbrentry => simp [csrRead, State.tlbrentryAddr]

/-- Settles O30. As for the exception CSRs; TVAL reads the counter by its definition while the timer runs. -/
theorem timerAndWindowCsrLayout : Obligations.TimerAndWindowCsrLayout := by
  unfold Obligations.TimerAndWindowCsrLayout
  intro s
  refine ⟨?tcfg, fun hrun => if_pos hrun, rfl, ?llbctl, fun i => ?dmw⟩
  case tcfg => simp [csrRead, Timer.tcfgWord]
  case llbctl => simp [csrRead, Llbctl.toWord]
  case dmw => simp [csrRead, Dmw.toWord]

end Sys2Proof
end

section
/-! PROOFS. CsrWrite (R101): which writes are done, which bits change, and what else stays as it was. -/

namespace Sys2Proof

open Machine Safety

/-! ## The writes that are done -/

theorem accessTypeOk_iff {mat : BitVec 2} : accessTypeOk mat = true ↔ mat = 0#2 ∨ mat = 1#2 := by
  revert mat
  decide

/-- A CSR write is done exactly if R101's table does not refuse it. -/
theorem csrWrite_ok_iff {c : Csr} {v : Word} {s : State} : (∃ t, csrWrite c v s = .ok t) ↔ WriteLegal c v := by
  cases c
  case crmd =>
    have hmode : ((Crmd.ofWord v).da && !(Crmd.ofWord v).pg) = true ↔ bit v 3 = true ∧ bit v 4 = false := by
      simp [Crmd.ofWord]
    have hlegal : WriteLegal .crmd v ↔ plvLegal (Crmd.ofWord v).plv = true ∧
        ((Crmd.ofWord v).da && !(Crmd.ofWord v).pg) = true ∧ accessTypeOk (Crmd.ofWord v).datf = true ∧
        accessTypeOk (Crmd.ofWord v).datm = true := by
      rw [plvLegal_iff, hmode, accessTypeOk_iff, accessTypeOk_iff, and_assoc]
      rfl
    rw [hlegal]
    constructor
    · rintro ⟨t, ht⟩
      exact (csrWrite_ok ht).2
    · rintro ⟨hplv, htrans, hdatf, hdatm⟩
      exact ⟨_, by simp only [csrWrite, writeCrmd, hplv, htrans, hdatf, hdatm]; rfl⟩
  case tcfg =>
    have hlegal : WriteLegal .tcfg v ↔ ((s.timer.writeTcfg v).en && (s.timer.writeTcfg v).initVal == 0#30) = false := by
      simp [WriteLegal, Timer.writeTcfg]
    rw [hlegal]
    constructor
    · rintro ⟨t, ht⟩
      exact (csrWrite_ok ht).2
    · intro hstart
      exact ⟨_, by simp only [csrWrite, writeTimer, hstart]; rfl⟩
  case dmw i =>
    have hlegal : WriteLegal (.dmw i) v ↔ accessTypeOk (Dmw.ofWord v).mat = true := accessTypeOk_iff.symm
    rw [hlegal]
    constructor
    · rintro ⟨t, ht⟩
      exact (csrWrite_ok ht).2
    · intro hmat
      exact ⟨_, by rw [csrWrite, writeDmw, if_pos hmat]⟩
  all_goals exact ⟨fun _ => trivial, fun _ => ⟨_, rfl⟩⟩

theorem csrWrite_refused_of_not_writeLegal {c : Csr} {v : Word} (h : ¬ WriteLegal c v) (s : State) :
    ∃ r, csrWrite c v s = .refused r :=
  (csrWrite_ok_or_refused c v s).resolve_left fun hok => h (csrWrite_ok_iff.mp hok)

/-! ## The bits that change

Every CSR that a write replaces as a whole reads as the written word under its mask, and has no bit outside its mask. -/

theorem crmd_toWord_ofWord (v : Word) : (Crmd.ofWord v).toWord = v &&& 0x000001FF#32 := by
  simp only [Crmd.toWord, Crmd.ofWord, place_field, placeBit_bit, ← BitVec.and_or_distrib_left]
  rfl

theorem prmd_toWord_ofWord (v : Word) : (Prmd.ofWord v).toWord = v &&& 0x00000007#32 := by
  simp only [Prmd.toWord, Prmd.ofWord, place_field, placeBit_bit, ← BitVec.and_or_distrib_left]
  rfl

theorem ecfg_toWord_ofWord (v : Word) : (Ecfg.ofWord v).toWord = v &&& 0x00001BFF#32 := by
  simp only [Ecfg.toWord, Ecfg.ofWord, place_field, ← BitVec.and_or_distrib_left]
  rfl

theorem dmw_toWord_ofWord (v : Word) : (Dmw.ofWord v).toWord = v &&& 0xEE000039#32 := by
  simp only [Dmw.toWord, Dmw.ofWord, place_field, placeBit_bit, ← BitVec.and_or_distrib_left]
  rfl

theorem tcfgWord_writeTcfg (t : Timer) (v : Word) : (t.writeTcfg v).tcfgWord = v &&& timerMask := by
  simp only [Timer.tcfgWord, Timer.writeTcfg, place_field, placeBit_bit, ← BitVec.and_or_distrib_left]
  exact BitVec.and_allOnes

theorem crmd_toWord_and_wmask (c : Crmd) : c.toWord &&& 0x000001FF#32 = c.toWord := by
  have hfields : Crmd.ofWord c.toWord = c := by simp [Crmd.ofWord, Crmd.toWord]
  rw [← crmd_toWord_ofWord, hfields]

theorem prmd_toWord_and_wmask (p : Prmd) : p.toWord &&& 0x00000007#32 = p.toWord := by
  have hfields : Prmd.ofWord p.toWord = p := by simp [Prmd.ofWord, Prmd.toWord]
  rw [← prmd_toWord_ofWord, hfields]

theorem ecfg_toWord_and_wmask (e : Ecfg) : e.toWord &&& 0x00001BFF#32 = e.toWord := by
  have hfields : Ecfg.ofWord e.toWord = e := by simp [Ecfg.ofWord, Ecfg.toWord]
  rw [← ecfg_toWord_ofWord, hfields]

theorem dmw_toWord_and_wmask (d : Dmw) : d.toWord &&& 0xEE000039#32 = d.toWord := by
  have hfields : Dmw.ofWord d.toWord = d := by simp [Dmw.ofWord, Dmw.toWord]
  rw [← dmw_toWord_ofWord, hfields]

/-- A write that replaces the whole CSR changes the masked bits, if the old word has no others. -/
theorem eq_merge_of_replaced {old new v mask : Word} (hold : old &&& mask = old) (hnew : new = v &&& mask) :
    new = (old &&& ~~~mask) ||| (v &&& mask) := by
  have hnone : old &&& ~~~mask = 0#32 := by
    rw [← hold, BitVec.and_assoc]
    simp
  rw [hnone, BitVec.zero_or, hnew]

/-- Of ESTAT a write reaches IS[1:0] alone (R20). -/
theorem estatWord_write (e : Estat) (l : Lines) (timerInt : Bool) (v : Word) :
    estatWord { e with swi := field v 0 2 } l timerInt = (estatWord e l timerInt &&& ~~~3#32) ||| (v &&& 3#32) := by
  apply BitVec.eq_of_getElem_eq
  intro j hj
  interval_cases j <;> simp [estatWord]

theorem csrRead_of_csrWrite {c : Csr} {v : Word} {s t : State} (h : csrWrite c v s = .ok t) (hc : c ≠ .llbctl) :
    csrRead c t = (csrRead c s &&& ~~~c.wmask) ||| (v &&& c.wmask) := by
  have h := csrWrite_ok h
  cases c <;> simp only at h
  case crmd =>
    obtain ⟨rfl, -⟩ := h
    exact eq_merge_of_replaced (crmd_toWord_and_wmask s.crmd) (crmd_toWord_ofWord v)
  case prmd =>
    subst h
    exact eq_merge_of_replaced (prmd_toWord_and_wmask s.prmd) (prmd_toWord_ofWord v)
  case euen =>
    subst h
    refine eq_merge_of_replaced ?_ (placeBit_bit v 0)
    exact (placeBit_bit _ 0).symm.trans (by simp [csrRead])
  case ecfg =>
    subst h
    exact eq_merge_of_replaced (ecfg_toWord_and_wmask s.ecfg) (ecfg_toWord_ofWord v)
  case estat =>
    subst h
    exact estatWord_write s.estat s.lines s.timer.int v
  case era | badv =>
    subst h
    exact eq_merge_of_replaced BitVec.and_allOnes BitVec.and_allOnes.symm
  case eentry | tlbrentry =>
    subst h
    refine eq_merge_of_replaced ?_ (place_field v 6 26)
    exact (place_field _ 6 26).symm.trans (by simp [csrRead, State.eentryAddr, State.tlbrentryAddr])
  case tcfg =>
    obtain ⟨rfl, -⟩ := h
    exact eq_merge_of_replaced BitVec.and_allOnes (tcfgWord_writeTcfg s.timer v)
  case tval | ticlr =>
    subst h
    simp only [Csr.wmask, BitVec.and_zero, BitVec.or_zero]
    exact BitVec.and_allOnes.symm
  case llbctl => exact absurd rfl hc
  case dmw i _ =>
    obtain ⟨rfl, -⟩ := h
    have hnew : ((s.dmw.set i (Dmw.ofWord v))[i]).toWord = v &&& 0xEE000039#32 := by
      simpa using dmw_toWord_ofWord v
    exact eq_merge_of_replaced (dmw_toWord_and_wmask s.dmw[i]) hnew
  case save i _ =>
    subst h
    have hnew : (s.save.set i v)[i] = v := by simp
    exact eq_merge_of_replaced BitVec.and_allOnes (hnew.trans BitVec.and_allOnes.symm)

/-! ## What a write leaves as it was -/

/-- Beside itself a write reaches two CSRs: TVAL follows the counter a write of TCFG loads, ESTAT shows the latch a write of
TICLR clears. -/
theorem csrRead_of_csrWrite_of_ne {c d : Csr} {v : Word} {s t : State} (h : csrWrite c v s = .ok t) (hd : d ≠ c)
    (htval : ¬ (c = .tcfg ∧ d = .tval)) (hestat : ¬ (c = .ticlr ∧ d = .estat)) : csrRead d t = csrRead d s := by
  have h := csrWrite_ok h
  cases c <;> simp only at h
  case crmd | tcfg =>
    obtain ⟨rfl, -⟩ := h
    cases d <;> simp [csrRead, State.tvalWord, State.eentryAddr, State.tlbrentryAddr, Timer.writeTcfg] at hd htval ⊢
  case dmw i _ =>
    obtain ⟨rfl, -⟩ := h
    cases d <;> simp [csrRead, State.tvalWord, State.eentryAddr, State.tlbrentryAddr] at hd ⊢
    case dmw j => rw [Vector.getElem_set_ne]; omega
  case save i _ =>
    subst h
    cases d <;> simp [csrRead, State.tvalWord, State.eentryAddr, State.tlbrentryAddr] at hd ⊢
    case save j => rw [Vector.getElem_set_ne]; omega
  all_goals
    subst h
    cases d <;> simp [csrRead, State.tvalWord, State.eentryAddr, State.tlbrentryAddr, Timer.tcfgWord] at hd hestat ⊢

end Sys2Proof
end

section
/-! PROOFS. What a CSR write does as a whole (R101), and the CSR instructions at PLV0 (R102 to R104). -/

namespace Sys2Proof

open Machine Safety

/-! ## The side effects of a write -/

theorem llbctl_of_csrWrite {c : Csr} {v : Word} {s t : State} (h : csrWrite c v s = .ok t) :
    t.llbctl = if c = .llbctl then s.llbctl.write v else s.llbctl := by
  have h := csrWrite_ok h
  cases c <;> simp only at h
  case crmd | tcfg | dmw => obtain ⟨rfl, -⟩ := h; rfl
  all_goals subst h; rfl

theorem estat_of_csrWrite {c : Csr} {v : Word} {s t : State} (h : csrWrite c v s = .ok t) (hc : c ≠ .estat) :
    t.estat = s.estat := by
  have h := csrWrite_ok h
  cases c <;> simp only at h
  case crmd | tcfg | dmw => obtain ⟨rfl, -⟩ := h; rfl
  case estat => exact absurd rfl hc
  all_goals subst h; rfl

theorem crmd_of_csrWrite {c : Csr} {v : Word} {s t : State} (h : csrWrite c v s = .ok t) :
    t.crmd = if c = .crmd then Crmd.ofWord v else s.crmd := by
  have h := csrWrite_ok h
  cases c <;> simp only at h
  case crmd | tcfg | dmw => obtain ⟨rfl, -⟩ := h; rfl
  all_goals subst h; rfl

theorem timer_of_csrWrite {c : Csr} {v : Word} {s t : State} (h : csrWrite c v s = .ok t) :
    t.timer = if c = .tcfg then s.timer.writeTcfg v
      else if c = .ticlr then { s.timer with int := s.timer.int && !bit v 0 } else s.timer := by
  have h := csrWrite_ok h
  cases c <;> simp only at h
  case crmd | tcfg | dmw => obtain ⟨rfl, -⟩ := h; rfl
  all_goals subst h; rfl

/-- R171: the counter a write of TCFG loads is the written value with InitVal's two 0 bits at its end. -/
theorem val_writeTcfg (t : Timer) (v : Word) : (t.writeTcfg v).val = v &&& timerMask &&& ~~~3#32 := place_field _ 2 30

theorem csrWrite_not_raise {c : Csr} {v : Word} {s : State} {e : Exception} {badv : Word} :
    csrWrite c v s ≠ .raise e badv := by
  obtain ⟨t, h⟩ | ⟨r, h⟩ := csrWrite_ok_or_refused c v s <;> rw [h] <;> exact nofun

theorem memSame_of_csrWrite {c : Csr} {v : Word} {s t : State} (h : csrWrite c v s = .ok t) : MemSame s t := by
  obtain ⟨-, -, hmem, hstored, -⟩ := csrWrite_frame h
  exact ⟨fun a => by rw [hmem], hstored⟩

theorem outsideSame_of_csrWrite {c : Csr} {v : Word} {s t : State} (h : csrWrite c v s = .ok t) : OutsideSame s t := by
  obtain ⟨-, -, -, -, hmap, hlines, hschedule, hdraws⟩ := csrWrite_frame h
  exact ⟨hlines, hmap, hschedule, hdraws⟩

/-- A write that is done is the write of R101. -/
theorem csrWritten_of_csrWrite {c : Csr} {v : Word} {s t : State} (h : csrWrite c v s = .ok t) : CsrWritten c v s t where
  masked := csrRead_of_csrWrite h
  others _ := csrRead_of_csrWrite_of_ne h
  klo := by rw [llbctl_of_csrWrite h]; split <;> rfl
  llbit := by
    rw [llbctl_of_csrWrite h]
    by_cases hc : c = .llbctl <;> cases hv : bit v 1 <;> simp [hc, hv, Llbctl.write]
  estat := estat_of_csrWrite h
  timerInt := by
    rw [timer_of_csrWrite h]
    by_cases htcfg : c = .tcfg
    · simp [htcfg, Timer.writeTcfg]
    · by_cases hticlr : c = .ticlr <;> cases hv : bit v 0 <;> simp [htcfg, hticlr]
  counter := by
    rw [timer_of_csrWrite h]
    by_cases htcfg : c = .tcfg
    · simp [htcfg, val_writeTcfg]
    · by_cases hticlr : c = .ticlr <;> simp [htcfg, hticlr]
  running := by
    rw [timer_of_csrWrite h]
    by_cases htcfg : c = .tcfg
    · simp [htcfg, Timer.writeTcfg]
    · by_cases hticlr : c = .ticlr <;> simp [htcfg, hticlr]
  memory := memSame_of_csrWrite h
  outside := outsideSame_of_csrWrite h

/-- Settles O31. A legal write is done, and what is done is R101's; an illegal one is refused. SAVE's writes are no
exception. -/
theorem csrWriteFollowsMask : Obligations.CsrWriteFollowsMask := by
  unfold Obligations.CsrWriteFollowsMask
  intro c v s _
  refine ⟨fun hlegal => ?_, fun hillegal => csrWrite_refused_of_not_writeLegal hillegal s⟩
  obtain ⟨t, ht⟩ := csrWrite_ok_iff.mpr hlegal
  obtain ⟨hgpr, hpc, -⟩ := csrWrite_frame ht
  exact ⟨t, ht, csrWritten_of_csrWrite ht, State.readReg_congr hgpr, hpc⟩

/-! ## The CSR instructions at PLV0 -/

theorem privileged_of_plv_eq {s : State} (h : s.crmd.plv = 0#2) (k : Host.Outcome State Fault Refusal) :
    s.privileged k = k := if_pos h

theorem csrOf_eq_ok {n : CsrNumber} {c : Csr} (h : Csr.ofNumber n = some c) : csrOf n = .ok c := by rw [csrOf, h]

theorem csrOf_eq_refused {n : CsrNumber} (h : Csr.ofNumber n = none) : csrOf n = .refused (.undefinedCsr n) := by
  rw [csrOf, h]

section
variable {rd rj : Reg} {n : CsrNumber} {c : Csr} {s : State}

theorem exec_csrrd (hplv : s.crmd.plv = 0#2) (hn : Csr.ofNumber n = some c) :
    exec (.csrrd rd n) s = .next (s.writeReg rd (csrRead c s)).advance := by
  rw [exec, execCsrrd, privileged_of_plv_eq hplv, csrOf_eq_ok hn]
  rfl

theorem exec_csrwr (hplv : s.crmd.plv = 0#2) (hn : Csr.ofNumber n = some c) :
    exec (.csrwr rd n) s = (csrWrite c (s.readReg rd) s).finish s fun t => .next (t.writeReg rd (csrRead c s)).advance := by
  rw [exec, execCsrwr, privileged_of_plv_eq hplv, csrOf_eq_ok hn]
  rfl

theorem exec_csrxchg (hplv : s.crmd.plv = 0#2) (hn : Csr.ofNumber n = some c) :
    exec (.csrxchg rd rj n) s = (csrExchange c (s.readReg rd) (s.readReg rj) s).finish s
      fun t => .next (t.writeReg rd (csrRead c s)).advance := by
  rw [exec, execCsrxchg, privileged_of_plv_eq hplv, csrOf_eq_ok hn]
  rfl

end

/-- Settles O36. Past the privilege check the look-up of the number is the first thing each of the three does. -/
theorem undefinedCsrIsRefused : Obligations.UndefinedCsrIsRefused := by
  unfold Obligations.UndefinedCsrIsRefused
  intro rd rj n s hplv hn
  refine ⟨?_, ?_, ?_⟩
  · rw [exec, execCsrrd, privileged_of_plv_eq hplv, csrOf_eq_refused hn]
    rfl
  · rw [exec, execCsrwr, privileged_of_plv_eq hplv, csrOf_eq_refused hn]
    rfl
  · rw [exec, execCsrxchg, privileged_of_plv_eq hplv, csrOf_eq_refused hn]
    rfl

/-- Settles O32. CSRRD's one effect is its register write. -/
theorem csrrdResult : Obligations.CsrrdResult := by
  unfold Obligations.CsrrdResult
  exact fun rd n c s hplv hn => ⟨_, exec_csrrd hplv hn, wroteOnlyReg_writeReg_advance rd (csrRead c s) s⟩

@[simp] theorem csrRead_writeReg (c : Csr) (s : State) (rd : Reg) (v : Word) :
    csrRead c (s.writeReg rd v) = csrRead c s := by
  cases c <;> simp [csrRead, State.eentryAddr, State.tlbrentryAddr, State.tvalWord]

@[simp] theorem csrRead_advance (c : Csr) (s : State) : csrRead c s.advance = csrRead c s := by
  cases c <;> rfl

/-- The write of a general register that ends a CSR instruction takes nothing back of its CSR write. -/
theorem csrWritten_writeReg_advance {c : Csr} {v : Word} {s u : State} (h : CsrWritten c v s u) (rd : Reg) (old : Word) :
    CsrWritten c v s (u.writeReg rd old).advance where
  masked := by simpa using h.masked
  others := by simpa using h.others
  klo := by simpa using h.klo
  llbit := by simpa using h.llbit
  estat := by simpa using h.estat
  timerInt := by simpa using h.timerInt
  counter := by simpa using h.counter
  running := by simpa using h.running
  memory := by simpa [MemSame] using h.memory
  outside := ⟨by simpa using h.outside.lines, by simpa using h.outside.memMap, by simpa using h.outside.schedule,
    by simpa using h.outside.draws⟩

/-- What CSRWR and CSRXCHG leave once their write is done. -/
theorem swap_of_csrWrite {c : Csr} {v : Word} {s u : State} (h : csrWrite c v s = .ok u) (rd : Reg) :
    OnlyReg rd (csrRead c s) s (u.writeReg rd (csrRead c s)).advance ∧
      (u.writeReg rd (csrRead c s)).advance.pc = s.pc + 4#32 ∧
      CsrWritten c v s (u.writeReg rd (csrRead c s)).advance := by
  obtain ⟨hgpr, hpc, -⟩ := csrWrite_frame h
  refine ⟨fun r => ?_, by simp [hpc], csrWritten_writeReg_advance (csrWritten_of_csrWrite h) rd _⟩
  rw [State.readReg_advance, State.readReg_writeReg, State.readReg_congr hgpr]

/-- Settles O33. CSRWR ends as its CSR write ends. -/
theorem csrwrResult : Obligations.CsrwrResult := by
  unfold Obligations.CsrwrResult
  intro rd n c s hplv hn
  refine ⟨fun hlegal => ?_, fun hillegal => ?_⟩
  · obtain ⟨u, hu⟩ := csrWrite_ok_iff.mpr hlegal
    exact ⟨_, by rw [exec_csrwr hplv hn, hu, Result.finish], swap_of_csrWrite hu rd⟩
  · obtain ⟨r, hr⟩ := csrWrite_refused_of_not_writeLegal hillegal s
    exact ⟨r, by rw [exec_csrwr hplv hn, hr, Result.finish]⟩

/-- Settles O34. With mask 0 CSRXCHG writes `rd` alone; with any other it ends as the CSR write of the merged word ends. -/
theorem csrxchgResult : Obligations.CsrxchgResult := by
  unfold Obligations.CsrxchgResult
  rintro rd rj n c s new hplv hn rfl
  refine ⟨fun hmask => ?_, fun hmask hlegal => ?_, fun hmask hillegal => ?_⟩
  · exact ⟨_, by rw [exec_csrxchg hplv hn, csrExchange, if_pos hmask, Result.finish],
      wroteOnlyReg_writeReg_advance rd (csrRead c s) s⟩
  · obtain ⟨u, hu⟩ := csrWrite_ok_iff.mpr hlegal
    exact ⟨_, by rw [exec_csrxchg hplv hn, csrExchange, if_neg hmask, maskMerge, hu, Result.finish],
      swap_of_csrWrite hu rd⟩
  · obtain ⟨r, hr⟩ := csrWrite_refused_of_not_writeLegal hillegal s
    exact ⟨r, by rw [exec_csrxchg hplv hn, csrExchange, if_neg hmask, maskMerge, hr, Result.finish]⟩

/-! ## SAVE0 to SAVE3 (R31) -/

/-- A write of a SAVE register is always done and takes the whole word. -/
theorem csrWrite_save (i : Fin 4) (v : Word) (s : State) :
    csrWrite (.save i) v s = .ok { s with save := s.save.set i v } := rfl

/-- Settles O35. CSRWR of SAVE`i` is the swap with the whole word; the CSRRD after it finds the written word. -/
theorem saveRegistersAreScratch : Obligations.SaveRegistersAreScratch := by
  unfold Obligations.SaveRegistersAreScratch
  intro i rd rd' s hplv
  have hn : Csr.ofNumber (BitVec.ofNat 14 (0x30 + i.val)) = some (.save i) := ofNumber_number (.save i)
  have hwrite := csrWrite_save i (s.readReg rd) s
  obtain ⟨hreg, hpc, -⟩ := swap_of_csrWrite hwrite rd
  refine ⟨_, by rw [exec_csrwr hplv hn, hwrite, Result.finish], ?_, hreg, hpc, fun j hj => ?_, ?_⟩
  · simp
  · simp only [State.advance_save, State.writeReg_save]
    exact Vector.getElem_set_ne _ _ fun h => hj (Fin.ext h.symm)
  · have hread := exec_csrrd (rd := rd') (n := BitVec.ofNat 14 (0x30 + i.val)) (c := .save i)
      (s := ({ s with save := s.save.set i (s.readReg rd) }.writeReg rd (csrRead (.save i) s)).advance)
      (by simpa using hplv) hn
    have hback : csrRead (.save i)
        ({ s with save := s.save.set i (s.readReg rd) }.writeReg rd (csrRead (.save i) s)).advance = s.readReg rd := by
      simp [csrRead]
    rw [hback] at hread
    exact ⟨_, hread, wroteOnlyReg_writeReg_advance rd' (s.readReg rd) _⟩

end Sys2Proof
end

section
/-! PROOFS. Where a memory access stops (R62 to R66), and what a store leaves for the reads after it (R61, R71). -/

namespace Sys2Proof

open Machine Safety

/-! ## What the map answers (R64, R65, D16) -/

theorem mem_regionsAt_iff {map : List Region} {a n : Nat} {r : Option RegionKind} :
    r ∈ regionsAt map a n ↔ ∃ k, k < n ∧ regionAt map (a + k) = r := by
  constructor
  · exact exists_regionAt_of_mem_regionsAt
  · rintro ⟨k, hk, rfl⟩
    exact regionAt_mem_regionsAt map n a k hk

section
variable {s : State} {kind : AccessKind} {addr : Word} {pa n : Nat}

theorem checkMap_of_unmapped (h : ∃ k, k < n ∧ regionAt s.memMap (pa + k) = none) :
    s.checkMap kind addr pa n = .fault (.unmappedAddress kind addr) := by
  simp [State.checkMap, mem_regionsAt_iff.mpr h]

theorem checkMap_of_device (hmapped : ∀ k, k < n → regionAt s.memMap (pa + k) ≠ none)
    (h : ∃ k, k < n ∧ regionAt s.memMap (pa + k) = some .device) :
    s.checkMap kind addr pa n = .refused (.deviceAccess kind addr) := by
  have hnone : none ∉ regionsAt s.memMap pa n := fun hmem => by
    obtain ⟨k, hk, hr⟩ := mem_regionsAt_iff.mp hmem
    exact hmapped k hk hr
  simp [State.checkMap, hnone, mem_regionsAt_iff.mpr h]

/-- Where all bytes are memory, the map's answer to a store turns on whether one of them is in ROM. -/
theorem checkMap_store_of_memory
    (h : ∀ k, k < n → regionAt s.memMap (pa + k) = some .ram ∨ regionAt s.memMap (pa + k) = some .rom) :
    s.checkMap .store addr pa n = if some .rom ∈ regionsAt s.memMap pa n then .fault (.readOnlyStore addr) else .ok () := by
  have hnone : none ∉ regionsAt s.memMap pa n := fun hmem => by
    obtain ⟨k, hk, hr⟩ := mem_regionsAt_iff.mp hmem
    simpa [hr] using h k hk
  have hdevice : some .device ∉ regionsAt s.memMap pa n := fun hmem => by
    obtain ⟨k, hk, hr⟩ := mem_regionsAt_iff.mp hmem
    simpa [hr] using h k hk
  simp [State.checkMap, hnone, hdevice]

theorem checkMap_store_of_writable (h : ∀ k, k < n → regionAt s.memMap (pa + k) = some .ram) :
    s.checkMap .store addr pa n = .ok () := by
  have hrom : some .rom ∉ regionsAt s.memMap pa n := fun hmem => by
    obtain ⟨k, hk, hr⟩ := mem_regionsAt_iff.mp hmem
    simp [h k hk] at hr
  rw [checkMap_store_of_memory fun k hk => .inl (h k hk), if_neg hrom]

theorem translate_of_not_directMode (h : ¬ DirectMode s) : s.translate kind addr = .refused (.mappedAccess kind addr) := by
  have hmode : ¬ (s.crmd.da && !s.crmd.pg) = true := by simpa [DirectMode] using h
  rw [State.translate, if_neg hmode]

end

/-! ## Reads that stop -/

theorem readLE_eq_none {m : Memory} {n a : Nat} (h : ∃ k, k < n ∧ Memory.read m (a + k) = none) :
    Memory.readLE m a n = none := by
  induction n generalizing a with
  | zero => obtain ⟨k, hk, -⟩ := h; omega
  | succ n ih =>
    obtain ⟨k, hk, hread⟩ := h
    rw [Memory.readLE]
    cases k with
    | zero => simp [show Memory.read m a = none from hread]
    | succ k =>
      have hrest : Memory.readLE m (a + 1) n = none := ih ⟨k, by omega, by rw [← hread]; congr 1; omega⟩
      cases Memory.read m a <;> simp [hrest]

section
variable {s : State} {kind : AccessKind} {addr : Word} {n : Nat}

theorem memRead_of_not_directMode (halign : addr.toNat % n = 0) (h : ¬ DirectMode s) :
    s.memRead kind addr n = .refused (.mappedAccess kind addr) := by
  rw [State.memRead, checkAlign_of_aligned halign, Result.andThen, translate_of_not_directMode h, Result.andThen]

theorem memRead_of_checkMap_fault {f : Fault} (halign : addr.toNat % n = 0) (hmode : DirectMode s)
    (h : s.checkMap kind addr addr.toNat n = .fault f) : s.memRead kind addr n = .fault f := by
  simp only [State.memRead, checkAlign_of_aligned halign, translate_of_directMode hmode, Result.andThen, h]

theorem memRead_of_checkMap_refused {r : Refusal} (halign : addr.toNat % n = 0) (hmode : DirectMode s)
    (h : s.checkMap kind addr addr.toNat n = .refused r) : s.memRead kind addr n = .refused r := by
  simp only [State.memRead, checkAlign_of_aligned halign, translate_of_directMode hmode, Result.andThen, h]

/-- A read of memory the map allows ends in the word its bytes hold, or at a byte without a value. -/
theorem memRead_of_checkMap_ok (halign : addr.toNat % n = 0) (hmode : DirectMode s)
    (h : s.checkMap kind addr addr.toNat n = .ok ()) :
    s.memRead kind addr n = (Memory.readLE s.mem addr.toNat n).elim (.fault (.uninitialisedByte kind addr)) .ok := by
  simp only [State.memRead, checkAlign_of_aligned halign, translate_of_directMode hmode, Result.andThen, h]
  cases Memory.readLE s.mem addr.toNat n <;> rfl

/-- Where an aligned read in direct mode stops, in the order of R64. -/
theorem memRead_stops (hkind : kind ≠ .store) (halign : addr.toNat % n = 0) (hmode : DirectMode s) :
    ((∃ k, k < n ∧ regionAt s.memMap (addr.toNat + k) = none) →
      s.memRead kind addr n = .fault (.unmappedAddress kind addr)) ∧
    ((∀ k, k < n → regionAt s.memMap (addr.toNat + k) ≠ none) →
      (∃ k, k < n ∧ regionAt s.memMap (addr.toNat + k) = some .device) →
      s.memRead kind addr n = .refused (.deviceAccess kind addr)) ∧
    ((∀ k, k < n → regionAt s.memMap (addr.toNat + k) = some .ram ∨ regionAt s.memMap (addr.toNat + k) = some .rom) →
      (∃ k, k < n ∧ Memory.read s.mem (addr.toNat + k) = none) →
      s.memRead kind addr n = .fault (.uninitialisedByte kind addr)) := by
  refine ⟨fun hnone => ?_, fun hmapped hdevice => ?_, fun hmemory hunset => ?_⟩
  · exact memRead_of_checkMap_fault halign hmode (checkMap_of_unmapped hnone)
  · exact memRead_of_checkMap_refused halign hmode (checkMap_of_device hmapped hdevice)
  · rw [memRead_of_checkMap_ok halign hmode (checkMap_of_readable hkind hmemory), readLE_eq_none hunset]
    rfl

end

/-- Settles O22. LD.W stops where its read stops. -/
theorem loadStops : Obligations.LoadStops := by
  unfold Obligations.LoadStops
  rintro rd rj si12 s a rfl halign
  simp only [exec_ldw]
  refine ⟨fun hmode => ?_, fun hmode => ?_⟩
  · rw [memRead_of_not_directMode halign hmode, Result.finish]
  · obtain ⟨hunmapped, hdevice, hunset⟩ := memRead_stops (kind := .load) (by decide) halign hmode
    exact ⟨fun h => by rw [hunmapped h, Result.finish], fun h h' => by rw [hdevice h h', Result.finish],
      fun h h' => by rw [hunset h h', Result.finish]⟩

/-! ## Stores -/

section
variable {s : State} {addr : Word} {n : Nat} {v : BitVec (8 * n)}

theorem memWrite_of_not_directMode (halign : addr.toNat % n = 0) (h : ¬ DirectMode s) :
    s.memWrite addr n v = .refused (.mappedAccess .store addr) := by
  rw [State.memWrite, checkAlign_of_aligned halign, Result.andThen, translate_of_not_directMode h, Result.andThen]

/-- An aligned write in direct mode ends as the map's answer says. -/
theorem memWrite_of_aligned (halign : addr.toNat % n = 0) (hmode : DirectMode s) :
    s.memWrite addr n v = (s.checkMap .store addr addr.toNat n).andThen fun _ =>
      .ok { s with
        mem := Memory.writeLE s.mem addr.toNat n v
        stored := insertRising s.stored (wordAddr addr.toNat) } := by
  simp only [State.memWrite, checkAlign_of_aligned halign, translate_of_directMode hmode, Result.andThen]

end

/-- Settles O23. ST.W stops where its write stops. -/
theorem storeStops : Obligations.StoreStops := by
  unfold Obligations.StoreStops
  rintro rd rj si12 s a rfl halign
  simp only [exec_stw]
  refine ⟨fun hmode => ?_, fun hmode => ?_⟩
  · rw [memWrite_of_not_directMode halign hmode, Result.finish]
  · rw [memWrite_of_aligned halign hmode]
    refine ⟨fun hnone => ?_, fun hmapped hdevice => ?_, fun hmemory hrom => ?_⟩
    · rw [checkMap_of_unmapped hnone, Result.andThen, Result.finish]
    · rw [checkMap_of_device hmapped hdevice, Result.andThen, Result.finish]
    · rw [checkMap_store_of_memory hmemory, if_pos (mem_regionsAt_iff.mpr hrom), Result.andThen, Result.finish]

theorem wordAddr_of_aligned {a : Nat} (h : a % 4 = 0) : wordAddr a = a := Nat.div_mul_cancel (Nat.dvd_of_mod_eq_zero h)

/-- What a 4-byte write that is done leaves in memory. -/
theorem storedWord_of_memWrite {s t : State} {a v : Word} (hwf : s.mem.wf) (h : s.memWrite a 4 v = .ok t) :
    StoredWord s t a.toNat v := by
  obtain ⟨halign, -, -, -, rfl⟩ := State.memWrite_ok h
  refine ⟨fun b hb => Memory.read_writeLE_other 4 s.mem _ b v hwf.1 hb,
    fun k hk => Memory.read_writeLE 4 s.mem _ k v hwf.1 hk, fun x => ?_⟩
  rw [mem_insertRising, wordAddr_of_aligned halign]

/-- An aligned write of a word in direct mode is done where the four bytes are RAM. -/
theorem exists_memWrite_of_writableWord {s : State} {addr : Word} (halign : addr.toNat % 4 = 0) (hmode : DirectMode s)
    (hwritable : WritableWord s addr.toNat) (v : Word) : ∃ u, s.memWrite addr 4 v = .ok u :=
  ⟨_, by rw [memWrite_of_aligned halign hmode, checkMap_store_of_writable hwritable, Result.andThen]⟩

/-- Settles O18. The write of ST.W is done where the four bytes are RAM, and then `pc + 4` is all that is added; a
misaligned one is ALE. -/
theorem stwResult : Obligations.StwResult := by
  unfold Obligations.StwResult
  intro rd rj si12 s
  refine ⟨rfl, fun hwf halign hmode hwritable => ?_, fun hmis => ?_⟩
  · obtain ⟨u, hu⟩ := exists_memWrite_of_writableWord halign hmode hwritable (s.readReg rd)
    have hstored := storedWord_of_memWrite hwf hu
    refine ⟨u.advance, by rw [exec_stw, hu, Result.finish], hstored, ?_⟩
    obtain ⟨-, -, -, -, rfl⟩ := State.memWrite_ok hu
    exact ⟨fun _ => rfl, rfl, by constructor <;> rfl, by constructor <;> rfl⟩
  · have hentry := tookException_trap .ale s.pc (s.readReg rj + si12.signExtend 32) s
    exact ⟨_, exec_stw_of_misaligned hmis, hentry, hentry.ecode, hentry.esubcode⟩

/-! ## Reads after a store -/

/-- After a 4-byte write that is done, the four bytes are memory that can be read, and hold the value. -/
theorem readableWord_of_memWrite {s t : State} {a v : Word} (hwf : s.mem.wf) (h : s.memWrite a 4 v = .ok t) :
    a.toNat % 4 = 0 ∧ DirectMode t ∧ ReadableWord t a.toNat v := by
  obtain ⟨-, hbytes, -⟩ := storedWord_of_memWrite hwf h
  obtain ⟨halign, hda, hpg, hmap, rfl⟩ := State.memWrite_ok h
  refine ⟨halign, ⟨hda, hpg⟩, fun k hk => ⟨.inl ?_, hbytes k hk⟩⟩
  obtain hram | ⟨hstore, -⟩ := State.checkMap_ok hmap hk
  · exact hram
  · exact absurd rfl hstore

/-- A one-byte load of a byte of a readable word gives that byte. -/
theorem memRead_byte_of_readableWord {s : State} {addr v : Word} (halign : addr.toNat % 4 = 0) (hmode : DirectMode s)
    (hread : ReadableWord s addr.toNat v) {k : Nat} (hk : k < 4) :
    s.memRead .load (addr + BitVec.ofNat 32 k) 1 = .ok (byteOf v k) := by
  have haddr : (addr + BitVec.ofNat 32 k).toNat = addr.toNat + k := by bv_omega
  obtain ⟨hmemory, hbyte⟩ := hread k hk
  have hmap : s.checkMap .load (addr + BitVec.ofNat 32 k) (addr + BitVec.ofNat 32 k).toNat 1 = .ok () :=
    checkMap_of_readable (by decide) fun j hj => by
      obtain rfl : j = 0 := by omega
      rwa [haddr]
  have hvalue : Memory.readLE s.mem (addr + BitVec.ofNat 32 k).toNat 1 = some (byteOf v k) :=
    readLE_eq_some fun j hj => by
      obtain rfl : j = 0 := by omega
      rw [haddr, Nat.add_zero, hbyte, Nat.mul_zero, BitVec.extractLsb'_eq_self]
  rw [memRead_of_checkMap_ok (Nat.mod_one _) hmode hmap, hvalue]
  rfl

/-- Settles O26. The written word is readable, as a whole and byte by byte. -/
theorem narrowReadSeesWideWrite : Obligations.NarrowReadSeesWideWrite := by
  unfold Obligations.NarrowReadSeesWideWrite
  intro s t a v hwf hwrite
  obtain ⟨halign, hmode, hread⟩ := readableWord_of_memWrite hwf hwrite
  exact ⟨memRead_of_readableWord (by decide) halign hmode hread,
    fun k hk => memRead_byte_of_readableWord halign hmode hread hk⟩

end Sys2Proof
end

section
/-! PROOFS. The fetch of a core step (R63, R71, R150): where it stops, and the instruction it leads to. -/

namespace Sys2Proof

open Machine Safety

/-- The ticks and the sampling at the beginning of a step change nothing a memory access looks at. -/
theorem memRead_arrive (s : State) (kind : AccessKind) (addr : Word) (n : Nat) :
    s.arrive.memRead kind addr n = s.memRead kind addr n := rfl

theorem step_of_not_takesInterrupt {s : State} (h : s.takesInterrupt = false) :
    step s = s.arrive.fetch.finish s.arrive fun w => execWord w s.arrive := by simp [step, h]

/-- A step ends as the read of its fetch ends, unless that gives a word. -/
theorem step_of_fetch_fault {s : State} {f : Fault} (hno : s.takesInterrupt = false)
    (h : s.memRead .fetch s.pc 4 = .fault f) : step s = .fault f := by
  rw [step_of_not_takesInterrupt hno, State.fetch, memRead_arrive, State.arrive_pc, h, Result.andThen, Result.finish]

theorem step_of_fetch_refused {s : State} {r : Refusal} (hno : s.takesInterrupt = false)
    (h : s.memRead .fetch s.pc 4 = .refused r) : step s = .refused r := by
  rw [step_of_not_takesInterrupt hno, State.fetch, memRead_arrive, State.arrive_pc, h, Result.andThen, Result.finish]

/-- Settles O24. The step stops where the read of its fetch stops. -/
theorem fetchStops : Obligations.FetchStops := by
  unfold Obligations.FetchStops
  intro s hno halign
  refine ⟨fun hmode => step_of_fetch_refused hno (memRead_of_not_directMode halign hmode), fun hmode => ?_⟩
  obtain ⟨hunmapped, hdevice, hunset⟩ := memRead_stops (kind := .fetch) (by decide) halign hmode
  exact ⟨fun h => step_of_fetch_fault hno (hunmapped h), fun h h' => step_of_fetch_refused hno (hdevice h h'),
    fun h h' => step_of_fetch_fault hno (hunset h h')⟩

/-- Settles O8. The alignment check of the read is what ends the fetch, in ADEF. -/
theorem misalignedPcRaisesAdef : Obligations.MisalignedPcRaisesAdef := by
  unfold Obligations.MisalignedPcRaisesAdef
  intro s hno hmis
  have hentry : TookException .adef s.pc (some s.pc) s.arrive _ := tookException_trap .adef s.pc s.pc s.arrive
  refine ⟨_, ?_, hentry, hentry.ecode, hentry.esubcode⟩
  rw [step_of_not_takesInterrupt hno, State.fetch, memRead_arrive, State.arrive_pc, memRead_of_misaligned hmis]
  rfl

/-- R71: a fetch gives the word it read unless a store wrote it. -/
theorem fetch_of_readableWord {s : State} {w : Word} (halign : s.pc.toNat % 4 = 0) (hmode : DirectMode s)
    (hread : ReadableWord s s.pc.toNat w) :
    s.fetch = if s.stored.contains s.pc.toNat then .refused (.fetchOfStoredWord s.pc) else .ok w := by
  rw [State.fetch, memRead_of_readableWord (by decide) halign hmode hread, Result.andThen]

theorem fetch_of_fetches {s : State} {w : Word} (h : Fetches s w) : s.arrive.fetch = .ok w := by
  have hread := fetch_of_readableWord (s := s.arrive) h.aligned h.direct h.readable
  have hnot : ¬ s.arrive.stored.contains s.arrive.pc.toNat = true := by simpa using h.notStored
  rwa [if_neg hnot] at hread

theorem step_of_fetches {s : State} {w : Word} (h : Fetches s w) : step s = execWord w s.arrive := by
  rw [step_of_not_takesInterrupt h.noInterrupt, fetch_of_fetches h, Result.finish]

/-- Settles O6. The fetch gives the word, and the step runs what it decodes to. -/
theorem stepExecutesFetchedInstruction : Obligations.StepExecutesFetchedInstruction := by
  unfold Obligations.StepExecutesFetchedInstruction
  intro s w i hfetch hi
  rw [step_of_fetches hfetch, execWord, hi]

/-- Settles O10. The fetch gives the word, and one that decodes to nothing goes to BaseExec. -/
theorem wordOutsideTableIsRefused : Obligations.WordOutsideTableIsRefused := by
  unfold Obligations.WordOutsideTableIsRefused
  intro s w hfetch hnot
  rw [step_of_fetches hfetch, execWord]
  cases hw : decodeWord w with
  | ok i => exact absurd hw (hnot i)
  | error e => rfl

/-- Settles O25. The word ST.W wrote can be read, so the fetch comes to the check against the stored words, and fails it. -/
theorem fetchOfStoredWordIsRefused : Obligations.FetchOfStoredWordIsRefused := by
  unfold Obligations.FetchOfStoredWordIsRefused
  intro rd rj si12 s t u hwf hexec halign hpc hno hmode hmem hmap hstored
  rw [exec_stw] at hexec
  obtain ⟨v, hv, ht⟩ | ⟨e, b, hraise, -⟩ := Result.finish_next hexec
  · obtain rfl : v.advance = t := Host.Outcome.next.inj ht
    obtain ⟨-, -, hreadable⟩ := readableWord_of_memWrite hwf hv
    obtain ⟨-, -, hset⟩ := storedWord_of_memWrite hwf hv
    have hread : ReadableWord u.arrive u.arrive.pc.toNat (s.readReg rd) := fun k hk => by
      rw [State.arrive_pc, State.arrive_memMap, State.arrive_mem, hpc, hmap, hmem]
      exact hreadable k hk
    have hin : u.arrive.stored.contains u.arrive.pc.toNat = true := by
      rw [List.contains_iff_mem, State.arrive_pc, State.arrive_stored, hpc, hstored]
      exact (hset _).mpr (.inl rfl)
    rw [step_of_not_takesInterrupt hno, fetch_of_readableWord (s := u.arrive) (by rwa [State.arrive_pc, hpc]) hmode hread,
      if_pos hin]
    rfl
  · obtain ⟨hmis, -⟩ := State.memWrite_raise hraise
    exact absurd halign hmis

/-! ## Loading a word for the next step (log entry 2) -/

theorem pc_withFetchWord (s : State) (n : Nat) : (s.withFetchWord 32 n).pc.toNat = wordAddr s.pc.toNat := by
  have hlt : wordAddr s.pc.toNat < 2 ^ 32 := by
    have := s.pc.isLt
    simp only [wordAddr]
    omega
  exact Nat.mod_eq_of_lt hlt

/-- `withFetchWord` sees to it that the map has memory at the word. -/
theorem regionAt_withFetchWord (s : State) (n : Nat) {k : Nat} (hk : k < 4) :
    regionAt (s.withFetchWord 32 n).memMap (wordAddr s.pc.toNat + k) = some .ram ∨
      regionAt (s.withFetchWord 32 n).memMap (wordAddr s.pc.toNat + k) = some .rom := by
  simp only [State.withFetchWord]
  split
  · next hfetchable => simpa using List.all_eq_true.mp hfetchable _ (regionAt_mem_regionsAt s.memMap 4 _ k hk)
  · exact .inl (if_pos ⟨Nat.le_add_right _ _, by dsimp only; omega⟩)

/-- The word loaded by `withFetchWord` is the one the next step fetches. -/
theorem fetches_withFetchWord {s : State} (hwf : s.mem.wf) (n : Nat) :
    Fetches (s.withFetchWord 32 n) (BitVec.ofNat 32 (n % 2 ^ 32)) where
  noInterrupt := Bool.and_false _
  aligned := by rw [pc_withFetchWord, wordAddr, Nat.mul_mod_left]
  direct := ⟨rfl, rfl⟩
  readable k hk := by
    rw [pc_withFetchWord]
    exact ⟨regionAt_withFetchWord s n hk, Memory.read_writeLE 4 s.mem _ k _ hwf.1 hk⟩
  notStored := by
    rw [pc_withFetchWord]
    simp [State.withFetchWord]

/-- Settles O9. The step fetches the loaded word, and so runs what it decodes to. -/
theorem withFetchWordRunsTheWord : Obligations.WithFetchWordRunsTheWord := by
  unfold Obligations.WithFetchWordRunsTheWord
  exact fun s n i hwf hi => stepExecutesFetchedInstruction _ _ i (fetches_withFetchWord hwf n) hi

end Sys2Proof
end

section
/-! PROOFS. What a whole core step can do (R150), said once for interrupts, exceptions and completed instructions, and what
follows for control flow, memory, the inputs and the privilege levels. -/

namespace Sys2Proof

open Machine Safety

/-- The ways a core step can lead from `s` to `t`: an exception or interrupt was taken, or the fetched instruction was
completed in one of four ways. -/
inductive StepEffect (s t : State) : Prop where
  | trapped (e : Exception) (badv : Word) (he : e ∈ [Exception.int, .adef, .ale, .sys, .brk, .ipe])
      (h : t = s.arrive.trap e s.pc badv)
  | wrote (rd : Reg) (v : Word) (h : t = (s.arrive.writeReg rd v).advance)
  | wroteCsr (w : Word) (i : Instr) (n : CsrNumber) (c : Csr) (v : Word) (rd : Reg) (u : State)
      (hw : s.arrive.fetch = .ok w) (hd : decodeWord w = .ok i)
      (hi : (∃ rd, i = .csrwr rd n) ∨ ∃ rd rj, i = .csrxchg rd rj n) (hn : Csr.ofNumber n = some c)
      (hplv : s.crmd.plv = 0#2) (hc : csrWrite c v s.arrive = .ok u)
      (h : t = (u.writeReg rd (csrRead c s.arrive)).advance)
  | returned (w : Word) (hw : s.arrive.fetch = .ok w) (hd : decodeWord w = .ok .ertn) (hplv : s.crmd.plv = 0#2)
      (h : s.arrive.exceptionReturn = .ok t)
  | stored (w : Word) (rd rj : Reg) (si12 : BitVec 12) (u : State) (hw : s.arrive.fetch = .ok w)
      (hd : decodeWord w = .ok (.stw rd rj si12))
      (hu : s.arrive.memWrite (s.arrive.effectiveAddr rj si12) 4 (s.arrive.readReg rd) = .ok u) (h : t = u.advance)

theorem step_effect {s t : State} (h : step s = .next t) : StepEffect s t := by
  obtain ⟨-, rfl⟩ | ⟨-, -, rfl⟩ | ⟨-, w, i, hw, hd, hexec⟩ := step_cases h
  · exact .trapped .int 0#32 (by decide) rfl
  · exact .trapped .adef s.pc (by decide) rfl
  · cases exec_cases hexec with
    | raised e badv ht he =>
      refine .trapped e badv ?_ ht
      obtain rfl | rfl | rfl | rfl := he <;> decide
    | wrote rd v ht => exact .wrote rd v ht
    | wroteCsr c v rd u hplv hc hi ht =>
      obtain ⟨n, rfl, hn⟩ | ⟨rj, n, rfl, hn⟩ := hi
      · exact .wroteCsr w _ n c v rd u hw hd (.inl ⟨rd, rfl⟩) hn hplv hc ht
      · exact .wroteCsr w _ n c v rd u hw hd (.inr ⟨rd, rj, rfl⟩) hn hplv hc ht
    | returned hi hplv ht => subst hi; exact .returned w hw hd hplv ht
    | stored rd rj si12 u hi hu ht => subst hi; exact .stored w rd rj si12 u hw hd hu ht

/-! ## Control flow (R112) -/

/-- Settles O12. Of the effects of a step only the return sets the pc to anything but `pc + 4` without an exception. -/
theorem ertnAloneTransfersControl : Obligations.ErtnAloneTransfersControl := by
  unfold Obligations.ErtnAloneTransfersControl
  intro s t hstep
  cases step_effect hstep with
  | trapped e badv _ ht => exact .inr (.inl ⟨e, _, ht ▸ tookException_trap e s.pc badv s.arrive⟩)
  | wrote rd v ht => exact .inl (by simp [ht])
  | wroteCsr w i n c v rd u _ _ _ _ _ hc ht =>
    obtain ⟨-, hpc, -⟩ := csrWrite_frame hc
    exact .inl (by simp [ht, hpc])
  | returned w hw hd _ ht =>
    obtain ⟨-, rfl⟩ := State.exceptionReturn_ok ht
    exact .inr (.inr ⟨rfl, w, hw, hd⟩)
  | stored w rd rj si12 u _ _ hu ht =>
    obtain ⟨-, -, -, -, rfl⟩ := State.memWrite_ok hu
    exact .inl (by simp [ht])

/-! ## Memory -/

/-- Settles O27. No effect of a step but the store touches memory. -/
theorem memoryChangesOnlyByStore : Obligations.MemoryChangesOnlyByStore := by
  unfold Obligations.MemoryChangesOnlyByStore
  intro s t hwf hstep
  cases step_effect hstep with
  | trapped e badv _ ht => exact .inl (ht ▸ ⟨fun _ => rfl, rfl⟩)
  | wrote rd v ht => exact .inl (by simp [ht, MemSame])
  | wroteCsr w i n c v rd u _ _ _ _ _ hc ht => exact .inl (by simpa [ht, MemSame] using memSame_of_csrWrite hc)
  | returned w _ _ _ ht =>
    obtain ⟨-, rfl⟩ := State.exceptionReturn_ok ht
    exact .inl ⟨fun _ => rfl, rfl⟩
  | stored w rd rj si12 u hw hd hu ht =>
    have hstored : StoredWord s.arrive u _ _ := storedWord_of_memWrite hwf hu
    exact .inr ⟨w, rd, rj, si12, hw, hd, ht ▸ hstored⟩

/-! ## Inputs, lines and the timer (R150, R170) -/

theorem arrived_arrive (s : State) : Arrived s s.arrive := by
  constructor
  case memory => exact ⟨fun _ => rfl, rfl⟩
  case regs => exact State.readReg_arrive s
  all_goals rfl

/-- No effect of a step touches the agents beside the core. -/
theorem outsideSame_of_step {s t : State} (h : step s = .next t) : OutsideSame s.arrive t := by
  cases step_effect h with
  | trapped e badv _ ht => exact ht ▸ ⟨rfl, rfl, rfl, rfl⟩
  | wrote rd v ht => constructor <;> simp [ht]
  | wroteCsr w i n c v rd u _ _ _ _ _ hc ht =>
    obtain ⟨hlines, hmap, hschedule, hdraws⟩ := outsideSame_of_csrWrite hc
    constructor <;> simp [ht, hlines, hmap, hschedule, hdraws]
  | returned w _ _ _ ht =>
    obtain ⟨-, rfl⟩ := State.exceptionReturn_ok ht
    exact ⟨rfl, rfl, rfl, rfl⟩
  | stored w rd rj si12 u _ _ hu ht =>
    obtain ⟨-, -, -, -, rfl⟩ := State.memWrite_ok hu
    exact ht ▸ ⟨rfl, rfl, rfl, rfl⟩

/-- A CSR write leaves the timer unless it is of TCFG or TICLR. -/
theorem timer_of_csrWrite_of_ne {c : Csr} {v : Word} {s t : State} (h : csrWrite c v s = .ok t) (htcfg : c ≠ .tcfg)
    (hticlr : c ≠ .ticlr) : t.timer = s.timer := by
  rw [timer_of_csrWrite h, if_neg htcfg, if_neg hticlr]

/-- Beyond its ticks the timer is touched only by the CSR writes to TCFG and TICLR (R25, R27). -/
theorem timer_of_step {s t : State} (h : step s = .next t) :
    t.timer = s.timer.ticks s.nextInput.ticks ∨
      ∃ w i n, s.arrive.fetch = .ok w ∧ decodeWord w = .ok i ∧ (n = 0x41#14 ∨ n = 0x44#14) ∧
        ((∃ rd, i = .csrwr rd n) ∨ ∃ rd rj, i = .csrxchg rd rj n) := by
  cases step_effect h with
  | trapped e badv _ ht => exact .inl (ht ▸ rfl)
  | wrote rd v ht => exact .inl (by simp [ht])
  | wroteCsr w i n c v rd u hw hd hi hn _ hc ht =>
    have hnumber := number_of_ofNumber hn
    by_cases htcfg : c = .tcfg
    · exact .inr ⟨w, i, n, hw, hd, .inl (by rw [← hnumber, htcfg]; rfl), hi⟩
    · by_cases hticlr : c = .ticlr
      · exact .inr ⟨w, i, n, hw, hd, .inr (by rw [← hnumber, hticlr]; rfl), hi⟩
      · exact .inl (by simp [ht, timer_of_csrWrite_of_ne hc htcfg hticlr])
  | returned w _ _ _ ht =>
    obtain ⟨-, rfl⟩ := State.exceptionReturn_ok ht
    exact .inl rfl
  | stored w rd rj si12 u _ _ hu ht =>
    obtain ⟨-, -, -, -, rfl⟩ := State.memWrite_ok hu
    exact .inl (ht ▸ rfl)

/-- Settles O11. The input is used up on arrival, and what the step does after that leaves the agents alone. -/
theorem stepUsesOneInput : Obligations.StepUsesOneInput := by
  unfold Obligations.StepUsesOneInput
  intro s
  refine ⟨fun inp rest h => by rw [State.nextInput, h], fun h => by rw [State.nextInput, h], arrived_arrive s,
    fun t hstep => ?_⟩
  obtain ⟨hlines, hmap, hschedule, hdraws⟩ := outsideSame_of_step hstep
  exact ⟨hschedule, hdraws, hlines, hmap, timer_of_step hstep⟩

/-! ## Privilege (R167, R168) -/

/-- Settles O52. Outside PLV0 a step that takes no exception writes a general register or memory, no CSR. -/
theorem userCannotWriteCsrs : Obligations.UserCannotWriteCsrs := by
  unfold Obligations.UserCannotWriteCsrs
  intro s t hplv hstep
  cases step_effect hstep with
  | trapped e badv _ ht => exact .inr ⟨e, _, ht ▸ tookException_trap e s.pc badv s.arrive⟩
  | wrote rd v ht => exact .inl (ht ▸ (wroteOnlyReg_writeReg_advance rd v s.arrive).csrs)
  | wroteCsr w i n c v rd u _ _ _ _ hplv0 _ _ => exact absurd hplv0 hplv
  | returned w _ _ hplv0 _ => exact absurd hplv0 hplv
  | stored w rd rj si12 u _ _ hu ht =>
    obtain ⟨-, -, -, -, rfl⟩ := State.memWrite_ok hu
    exact .inl (by subst ht; constructor <;> rfl)

/-- Settles O50. CRMD is one of the CSRs a step outside PLV0 leaves unless it takes an exception. -/
theorem onlyExceptionsEnterKernel : Obligations.OnlyExceptionsEnterKernel := by
  unfold Obligations.OnlyExceptionsEnterKernel
  exact fun s t hplv hstep => (userCannotWriteCsrs s t hplv hstep).imp_left fun hsame => hsame.crmd

/-- Settles O51. Of the effects of a step only a return and a CSR write can leave another level than PLV0, the write only if
it is of CRMD. -/
theorem kernelIsLeftByErtnOrCrmdWrite : Obligations.KernelIsLeftByErtnOrCrmdWrite := by
  unfold Obligations.KernelIsLeftByErtnOrCrmdWrite
  intro s t hplv hstep hleft
  cases step_effect hstep with
  | trapped e badv _ ht => exact absurd (ht ▸ rfl) hleft
  | wrote rd v ht => exact absurd (by simpa [ht] using hplv) hleft
  | wroteCsr w i n c v rd u hw hd hi hn _ hc ht =>
    by_cases hcrmd : c = .crmd
    · obtain rfl : 0x0#14 = n := by rw [← number_of_ofNumber hn, hcrmd]; rfl
      exact ⟨w, i, hw, hd, .inr hi⟩
    · exact absurd (by simpa [ht, crmd_of_csrWrite hc, hcrmd] using hplv) hleft
  | returned w hw hd _ _ => exact ⟨w, _, hw, hd, .inl rfl⟩
  | stored w rd rj si12 u _ _ hu ht =>
    obtain ⟨-, -, -, -, rfl⟩ := State.memWrite_ok hu
    exact absurd (by simpa [ht] using hplv) hleft

end Sys2Proof
end

section
/-! PROOFS. The invariant: reset has it, and every effect of a core step keeps it. -/

namespace Sys2Proof

open Machine Safety

/-! ## The timer's part (R170, R171) -/

/-- An enabled timer has a count to start from, and its counter does not exceed that. -/
def TimerInv (t : Timer) : Prop := (t.en = true → t.initVal ≠ 0#30) ∧ t.val.toNat ≤ 4 * t.initVal.toNat

theorem timerInv_tick {t : Timer} (h : TimerInv t) : TimerInv t.tick := by
  obtain ⟨hstart, hcount⟩ := h
  obtain ht | ⟨hval, ht⟩ | ht | ht := tick_cases t
  · rw [ht]
    exact ⟨hstart, hcount⟩
  · have hdown : (t.val - 1#32).toNat ≤ t.val.toNat := by bv_omega
    rw [ht]
    exact ⟨hstart, hdown.trans hcount⟩
  · rw [ht]
    exact ⟨hstart, (toNat_initCount t.initVal).le⟩
  · rw [ht]
    exact ⟨hstart, hcount⟩

theorem timerInv_ticks {t : Timer} (h : TimerInv t) (n : Nat) : TimerInv (t.ticks n) := by
  induction n with
  | zero => exact h
  | succ n ih => rw [ticks_succ_last]; exact timerInv_tick ih

/-- A write of TCFG that R171 does not refuse starts the counter at InitVal's count. -/
theorem timerInv_writeTcfg {t : Timer} {v : Word}
    (h : ((t.writeTcfg v).en && (t.writeTcfg v).initVal == 0#30) = false) : TimerInv (t.writeTcfg v) := by
  refine ⟨fun hen hinit => ?_, (toNat_initCount _).le⟩
  rw [hen, hinit] at h
  cases h

/-! ## The effects of a step -/

theorem inv_arrive {s : State} (h : Inv s) : Inv s.arrive := { h with timer := timerInv_ticks h.timer _ }

/-- The invariant does not look at the general registers and the pc. -/
theorem inv_writeReg_advance {s : State} (h : Inv s) (rd : Reg) (v : Word) : Inv (s.writeReg rd v).advance where
  memory := by simpa using h.memory
  stored := by simpa using h.stored
  level := by simpa using h.level
  direct := by simpa [DirectMode] using h.direct
  accessType := by simpa using h.accessType
  codes := by simpa using h.codes
  timer := by simpa using h.timer

/-- None of the exceptions that arise in the model is the TLB refill exception, and their codes are the recorded ones. -/
theorem inv_trap {s : State} (h : Inv s) {e : Exception} (he : e ∈ [Exception.int, .adef, .ale, .sys, .brk, .ipe])
    (epc badv : Word) : Inv (s.trap e epc badv) := by
  have hcodes : e.ecode ∈ recordedCodes ∧ e.esubcode = 0#9 := by revert e; decide
  have hne : e ≠ .tlbr := by revert e; decide
  obtain ⟨hda, hpg⟩ := enteredCrmd_translation e s.crmd
  rw [if_neg hne] at hda hpg
  exact { h with level := .inl rfl, direct := ⟨hda.trans h.direct.1, hpg.trans h.direct.2⟩, codes := hcodes }

theorem toNat_lt_of_accessTypeOk {mat : BitVec 2} (h : accessTypeOk mat = true) : mat.toNat < 2 := of_decide_eq_true h

/-- The checks of R101 are what keeps the invariant through a CSR write. -/
theorem inv_csrWrite {s t : State} {c : Csr} {v : Word} (h : Inv s) (hc : csrWrite c v s = .ok t) : Inv t := by
  have hc := csrWrite_ok hc
  cases c <;> simp only at hc
  case crmd =>
    obtain ⟨rfl, hplv, hmode, hdatf, hdatm⟩ := hc
    obtain ⟨hda, hpg⟩ := Bool.and_eq_true_iff.mp hmode
    exact { h with
      level := (plvLegal_iff _).mp hplv
      direct := ⟨hda, by simpa using hpg⟩
      accessType := ⟨toNat_lt_of_accessTypeOk hdatf, toNat_lt_of_accessTypeOk hdatm, h.accessType.2.2⟩ }
  case tcfg =>
    obtain ⟨rfl, hstart⟩ := hc
    exact { h with timer := timerInv_writeTcfg hstart }
  case dmw i _ =>
    obtain ⟨rfl, hmat⟩ := hc
    obtain ⟨hdatf, hdatm, hdmw⟩ := h.accessType
    refine { h with accessType := ⟨hdatf, hdatm, fun j => ?_⟩ }
    by_cases hij : i = j
    · subst hij
      simpa using toNat_lt_of_accessTypeOk hmat
    · have hother : (s.dmw.set i (Dmw.ofWord v))[j] = s.dmw[j] := Vector.getElem_set_ne _ _ fun hv => hij (Fin.ext hv)
      rw [hother]
      exact hdmw j
  all_goals
    subst hc
    exact { h with }

/-- No recorded code is that of the TLB refill exception, so ERTN stays in direct mode. -/
theorem inv_exceptionReturn {s t : State} (h : Inv s) (ht : s.exceptionReturn = .ok t) : Inv t := by
  obtain ⟨hplv, rfl⟩ := State.exceptionReturn_ok ht
  have hrefill : (s.estat.ecode == 0x3F#6) = false := by
    rw [beq_eq_false_iff_ne]
    rintro heq
    exact absurd h.codes.1 (by rw [heq]; decide)
  exact { h with
    level := (plvLegal_iff _).mp hplv
    direct := by simpa [DirectMode, returnedCrmd, hrefill] using h.direct }

theorem inv_memWrite {s t : State} {addr v : Word} (h : Inv s) (ht : s.memWrite addr 4 v = .ok t) : Inv t := by
  obtain ⟨halign, -, -, -, rfl⟩ := State.memWrite_ok ht
  have hlt := addr.isLt
  obtain ⟨hrising, haddrs⟩ := h.stored
  refine { h with
    memory := Memory.writeLE_wf 4 s.mem _ v h.memory (by omega)
    stored := ⟨insertRising_rising _ _ hrising, fun a ha => ?_⟩ }
  rw [wordAddr_of_aligned halign] at ha
  obtain rfl | ha := (mem_insertRising _ _ _).mp ha
  · exact ⟨halign, hlt⟩
  · exact haddrs a ha

/-- Settles O54. Arrival keeps the invariant, and so does each effect the step can then have. -/
theorem stepKeepsInvariant : Obligations.StepKeepsInvariant := by
  unfold Obligations.StepKeepsInvariant
  intro s t hinv hstep
  have harrive := inv_arrive hinv
  cases step_effect hstep with
  | trapped e badv he ht => exact ht ▸ inv_trap harrive he s.pc badv
  | wrote rd v ht => exact ht ▸ inv_writeReg_advance harrive rd v
  | wroteCsr w i n c v rd u _ _ _ _ _ hc ht => exact ht ▸ inv_writeReg_advance (inv_csrWrite harrive hc) rd _
  | returned w _ _ _ ht => exact inv_exceptionReturn harrive ht
  | stored w rd rj si12 u _ _ hu ht => exact ht ▸ { inv_memWrite harrive hu with }

/-- Settles O55. Reset lists no memory and no stored word; the rest are the values of its fields. -/
theorem resetHasInvariant : Obligations.ResetHasInvariant := by
  unfold Obligations.ResetHasInvariant
  exact {
    memory := ⟨.nil, fun _ h => nomatch h⟩
    stored := ⟨.nil, fun _ h => nomatch h⟩
    level := .inl rfl
    direct := ⟨rfl, rfl⟩
    accessType := ⟨by decide, by decide, fun i => by rw [reset_dmw]; decide⟩
    codes := ⟨by decide, rfl⟩
    timer := ⟨fun h => (nomatch h), Nat.zero_le _⟩ }

end Sys2Proof
end

section
/-! PROOFS. Exceptions and the return from them (R110, R111, R141, R160), interrupts along a run (R144, R147), the hazard of
CRMD.IE (R205), and reset by the host (R200). -/

namespace Sys2Proof

open Machine Safety

/-! ## Exceptions -/

/-- Settles O38. Trap is the exception entry of R160, for every exception. -/
theorem exceptionEntry : Obligations.ExceptionEntry := by
  unfold Obligations.ExceptionEntry
  exact tookException_trap

/-- Settles O39. The codes are those of the list, which holds every exception. -/
theorem exceptionCodes : Obligations.ExceptionCodes := by
  unfold Obligations.ExceptionCodes
  exact ⟨by decide, fun e => by cases e <;> decide⟩

/-! ## ERTN -/

/-- At PLV0 ERTN is the return from an exception. -/
theorem exec_ertn {s : State} (hplv : s.crmd.plv = 0#2) : exec .ertn s = s.exceptionReturn.finish s .next := by
  rw [exec, execErtn, privileged_of_plv_eq hplv]

theorem exceptionReturn_of_plvLegal {s : State} (h : plvLegal s.prmd.pplv = true) :
    s.exceptionReturn = .ok { s with crmd := returnedCrmd s, llbctl := returnLlbctl s.llbctl, pc := s.era } := if_pos h

/-- The translation bits after ERTN: those before it, unless the last exception was a TLB refill (R110). -/
theorem returnedCrmd_translation (s : State) :
    (s.estat.ecode ≠ 0x3F#6 → (returnedCrmd s).da = s.crmd.da ∧ (returnedCrmd s).pg = s.crmd.pg) ∧
      (s.estat.ecode = 0x3F#6 → (returnedCrmd s).da = false ∧ (returnedCrmd s).pg = true) := by
  refine ⟨fun h => ?_, fun h => ?_⟩ <;> simp [returnedCrmd, h]

/-- The LL bit after ERTN (R111). -/
theorem returnLlbctl_fields (l : Llbctl) :
    (returnLlbctl l).klo = false ∧ (returnLlbctl l).llbit = if l.klo then l.llbit else false := by
  cases h : l.klo <;> simp [returnLlbctl, h]

/-- Settles O40. A legal PPLV is the one condition on the return; what it sets is given by the lemmas above. -/
theorem ertnReturns : Obligations.ErtnReturns := by
  unfold Obligations.ErtnReturns
  intro s hplv
  rw [exec_ertn hplv]
  refine ⟨fun hlegal => ?_, fun hillegal => ?_⟩
  · obtain ⟨hkeep, hswitch⟩ := returnedCrmd_translation s
    obtain ⟨hklo, hllbit⟩ := returnLlbctl_fields s.llbctl
    rw [exceptionReturn_of_plvLegal ((plvLegal_iff _).mpr hlegal)]
    exact ⟨_, rfl, rfl, rfl, rfl, hkeep, hswitch, rfl, rfl, hklo, hllbit, rfl, rfl, rfl, rfl, rfl, rfl, rfl, rfl, rfl, rfl,
      rfl, fun _ => rfl, ⟨fun _ => rfl, rfl⟩, ⟨rfl, rfl, rfl, rfl⟩⟩
  · have hno : ¬ plvLegal s.prmd.pplv = true := by
      obtain h | h := hillegal <;> rw [h] <;> decide
    rw [State.exceptionReturn, if_neg hno, Result.finish]

/-! ## Interrupts -/

theorem takesInterrupt_iff {s : State} :
    s.takesInterrupt = true ↔ s.arrive.intPending = true ∧ s.nextInput.accept = true := Bool.and_eq_true_iff

/-- R146: the vector does not depend on CRMD; CRMD.IE is the other part of the pending condition. -/
theorem intVec_withCrmd (s : State) (c : Crmd) : { s with crmd := c }.intVec = s.intVec := by
  simp only [State.intVec, isVec_eq_append, lieVec_eq_append]

theorem lieVec_trap (s : State) (e : Exception) (epc badv : Word) : (s.trap e epc badv).lieVec = s.lieVec := by
  simp only [lieVec_eq_append, State.trap_ecfg]

/-- Settles O44. Exception entry touches neither vector, so with IE set again the same interrupts are pending. -/
theorem interruptEntryKeepsPendingBits : Obligations.InterruptEntryKeepsPendingBits := by
  unfold Obligations.InterruptEntryKeepsPendingBits
  intro s t htakes hstep
  rw [step_of_takesInterrupt htakes] at hstep
  obtain rfl : s.arrive.interrupt = t := Host.Outcome.next.inj hstep
  obtain ⟨hpending, -⟩ := takesInterrupt_iff.mp htakes
  obtain ⟨-, hvec⟩ := (intPending_iff s.arrive).mp hpending
  have his : s.arrive.interrupt.isVec = s.arrive.isVec := isVec_trap s.arrive _ _ _
  have hlie : s.arrive.interrupt.lieVec = s.arrive.lieVec := lieVec_trap s.arrive _ _ _
  refine ⟨his, hlie, rfl, (intPending_iff _).mpr ⟨rfl, ?_⟩⟩
  rwa [intVec_withCrmd, State.intVec, his, hlie]

theorem schedule_of_step {s t : State} (h : step s = .next t) : t.schedule = s.schedule.tail :=
  (outsideSame_of_step h).schedule

/-- Every step of a run uses up one input. -/
theorem schedule_of_run {run : Nat → State} {k : Nat} (h : ∀ j, j < k → step (run j) = .next (run (j + 1))) :
    (run k).schedule = (run 0).schedule.drop k := by
  induction k with
  | zero => rfl
  | succ k ih =>
    rw [schedule_of_step (h k (Nat.lt_succ_self k)), ih fun j hj => h j (Nat.lt_succ_of_lt hj), List.tail_drop]

theorem nextInput_of_head? {s : State} {inp : StepInput} (h : s.schedule.head? = some inp) : s.nextInput = inp := by
  obtain ⟨rest, hrest⟩ := List.head?_eq_some_iff.mp h
  rw [State.nextInput, hrest]

/-- Settles O45. After `k` steps the `k`-th input of the schedule is the next, and its acceptance is all that is missing. -/
theorem scheduledAcceptanceTakesInterrupt : Obligations.ScheduledAcceptanceTakesInterrupt := by
  unfold Obligations.ScheduledAcceptanceTakesInterrupt
  intro k run inp hrun hinp haccept hpending
  have hnext : (run k).nextInput = inp := nextInput_of_head? (by rw [schedule_of_run hrun, List.head?_drop, hinp])
  have htakes : (run k).takesInterrupt = true := takesInterrupt_iff.mpr ⟨hpending, hnext ▸ haccept⟩
  exact ⟨_, step_of_takesInterrupt htakes, tookException_interrupt (run k).arrive⟩

/-! ## The hazard of CRMD.IE (R205) -/

/-- A CSRXCHG of CRMD at PLV0 whose mask covers IE puts `x[rd]`'s bit in IE, and the next instruction is at `pc + 4`. -/
theorem ie_of_exec_csrxchg {rd rj : Reg} {s t : State} (hplv : s.crmd.plv = 0#2) (hmask : bit (s.readReg rj) 2 = true)
    (h : exec (.csrxchg rd rj 0x0#14) s = .next t) : t.crmd.ie = bit (s.readReg rd) 2 ∧ t.pc = s.pc + 4#32 := by
  have hne : s.readReg rj ≠ 0#32 := fun h0 => by rw [h0] at hmask; exact absurd hmask (by decide)
  rw [exec_csrxchg (c := .crmd) hplv rfl, csrExchange, if_neg hne] at h
  obtain ⟨u, hu, ht⟩ | ⟨e, b, hraise, -⟩ := Result.finish_next h
  · obtain rfl : (u.writeReg rd (csrRead .crmd s)).advance = t := Host.Outcome.next.inj ht
    obtain ⟨-, hpc, -⟩ := swap_of_csrWrite hu rd
    refine ⟨?_, hpc⟩
    have hbit : bit (maskMerge (csrRead .crmd s) (s.readReg rd) (s.readReg rj)) 2 = bit (s.readReg rd) 2 := by
      rw [bit_eq_getElem _ _ (by decide)] at hmask
      simp [bit, maskMerge, hmask]
    simpa [crmd_of_csrWrite hu, Crmd.ofWord] using hbit
  · exact absurd hraise csrWrite_not_raise

/-- Settles O46. IE is the written bit when the next step decides about the interrupt. -/
theorem enableTakesEffectAtNextInstruction : Obligations.EnableTakesEffectAtNextInstruction := by
  unfold Obligations.EnableTakesEffectAtNextInstruction
  intro rd rj s t hplv hmask hexec
  obtain ⟨hie, hpc⟩ := ie_of_exec_csrxchg hplv hmask hexec
  refine ⟨fun hset hvec haccept => ?_, fun hclear => ?_⟩
  · have hpending : t.arrive.intPending = true := (intPending_iff _).mpr ⟨hie.trans hset, hvec⟩
    exact ⟨_, step_of_takesInterrupt (takesInterrupt_iff.mpr ⟨hpending, haccept⟩),
      hpc ▸ tookException_interrupt t.arrive⟩
  · rw [← Bool.not_eq_true, takesInterrupt_iff, intPending_iff, State.arrive_crmd, hie, hclear]
    simp

/-! ## Reset by the host (R200) -/

/-- The floating-point enable is off at reset (R18, R48). -/
theorem csrRead_euen_reset : csrRead .euen State.reset = 0#32 := by decide

/-- Settles O57. The core's registers are those of the reset state, in which IE is 0; memory and its map are the old ones. -/
theorem hostResetKeepsMemory : Obligations.HostResetKeepsMemory := by
  unfold Obligations.HostResetKeepsMemory
  intro s
  have hwindows (i : Fin Config.numDmw) : s.applyReset.dmw[i].plv0 = false ∧ s.applyReset.dmw[i].plv3 = false := by
    rw [show s.applyReset.dmw[i] = State.reset.dmw[i] from rfl, reset_dmw]
    exact ⟨rfl, rfl⟩
  exact ⟨rfl, csrRead_crmd_reset, csrRead_euen_reset, csrRead_ecfg_reset, rfl, rfl, rfl, hwindows, ⟨fun _ => rfl, rfl⟩, rfl, rfl⟩

end Sys2Proof
end

section
/-! PROOFS. The expansion of `li` (R88, R129). -/

namespace Sys2Proof

open Machine Safety

theorem onlyReg_trans {rd : Reg} {v w : Word} {s t u : State} (h : OnlyReg rd v s t) (h' : OnlyReg rd w t u) :
    OnlyReg rd w s u := fun r => by
  rw [h' r, h r]
  split <;> rfl

theorem csrsSame_trans {s t u : State} (h : CsrsSame s t) (h' : CsrsSame t u) : CsrsSame s u where
  crmd := h'.crmd.trans h.crmd
  prmd := h'.prmd.trans h.prmd
  euen := h'.euen.trans h.euen
  ecfg := h'.ecfg.trans h.ecfg
  estat := h'.estat.trans h.estat
  era := h'.era.trans h.era
  badv := h'.badv.trans h.badv
  eentry := h'.eentry.trans h.eentry
  timer := h'.timer.trans h.timer
  llbctl := h'.llbctl.trans h.llbctl
  tlbrentry := h'.tlbrentry.trans h.tlbrentry
  dmw := h'.dmw.trans h.dmw
  save := h'.save.trans h.save

theorem memSame_trans {s t u : State} (h : MemSame s t) (h' : MemSame t u) : MemSame s u :=
  ⟨fun a => (h'.1 a).trans (h.1 a), h'.2.trans h.2⟩

theorem outsideSame_trans {s t u : State} (h : OutsideSame s t) (h' : OutsideSame t u) : OutsideSame s u :=
  ⟨h'.lines.trans h.lines, h'.memMap.trans h.memMap, h'.schedule.trans h.schedule, h'.draws.trans h.draws⟩

/-! ## The two parts of a constant -/

theorem immUi12_field (imm : Word) : immUi12 (field imm 0 12) = imm &&& 0x00000FFF#32 := by
  rw [show immUi12 (field imm 0 12) = place (field imm 0 12) 0 by simp [immUi12, place], place_field]
  rfl

theorem immSi20_field (imm : Word) : immSi20 (field imm 12 20) = imm &&& 0xFFFFF000#32 := place_field imm 12 20

theorem immSi20_or_immUi12 (imm : Word) : immSi20 (field imm 12 20) ||| immUi12 (field imm 0 12) = imm := by
  rw [immSi20_field, immUi12_field, ← BitVec.and_or_distrib_left]
  exact BitVec.and_allOnes

/-- A constant of at most 12 bits is its lower part. -/
theorem immUi12_of_small {imm : Word} (h : imm.toNat ≤ 0xFFF) : immUi12 (field imm 0 12) = imm := by
  rw [immUi12, field]
  apply BitVec.eq_of_toNat_eq
  simp only [BitVec.toNat_setWidth, BitVec.extractLsb'_toNat, Nat.shiftRight_zero]
  omega

/-- A constant with an empty lower part is its upper part. -/
theorem immSi20_of_low_zero {imm : Word} (h : field imm 0 12 = 0#12) : immSi20 (field imm 12 20) = imm := by
  have hjoin := immSi20_or_immUi12 imm
  rwa [h, show immUi12 0#12 = 0#32 from rfl, BitVec.or_zero] at hjoin

/-! ## The expansion -/

/-- What an instruction list that loads a constant has done once it has run. -/
def LoadsConstant (l : List Instr) (rd : Reg) (imm : Word) (s : State) : Prop :=
  ∃ t, runInstrs l s = .next t ∧ OnlyReg rd imm s t ∧ t.pc = s.pc + BitVec.ofNat 32 (4 * l.length) ∧ CsrsSame s t ∧
    MemSame s t ∧ OutsideSame s t

theorem loadsConstant_one {i : Instr} {rd : Reg} {imm : Word} {s t : State} (h : exec i s = .next t)
    (hw : WroteOnlyReg rd imm s t) : LoadsConstant [i] rd imm s :=
  ⟨t, by rw [runInstrs, h]; rfl, hw.reg, hw.pc, hw.csrs, hw.memory, hw.outside⟩

theorem loadsConstant_two {i j : Instr} {rd : Reg} {v imm : Word} {s t u : State} (h : exec i s = .next t)
    (hw : WroteOnlyReg rd v s t) (h' : exec j t = .next u) (hw' : WroteOnlyReg rd imm t u) :
    LoadsConstant [i, j] rd imm s := by
  refine ⟨u, by simp only [runInstrs, h, h'], onlyReg_trans hw.reg hw'.reg, ?_, csrsSame_trans hw.csrs hw'.csrs,
    memSame_trans hw.memory hw'.memory, outsideSame_trans hw.outside hw'.outside⟩
  rw [hw'.pc, hw.pc, BitVec.add_assoc]
  rfl

/-- The value written to `r0` does not matter. -/
theorem wroteOnlyReg_of_imp {rd : Reg} {v w : Word} {s t : State} (h : WroteOnlyReg rd v s t)
    (hv : rd ≠ 0#5 → v = w) : WroteOnlyReg rd w s t := by
  refine { h with reg := fun r => (h.reg r).trans ?_ }
  split
  · next hr => exact hv hr.2
  · rfl

/-- Settles O21. Each expansion's last write is the constant: its one part, or the join of both. -/
theorem liLoadsConstant : Obligations.LiLoadsConstant := by
  unfold Obligations.LiLoadsConstant
  intro rd imm s
  have hupper := wroteOnlyReg_writeReg_advance rd (immSi20 (field imm 12 20)) s
  show LoadsConstant (expandLi rd imm) rd imm s
  rw [expandLi]
  split
  · next hsmall =>
    have hvalue : s.readReg 0#5 ||| immUi12 (field imm 0 12) = imm := by
      rw [State.readReg_zero, BitVec.zero_or, immUi12_of_small hsmall]
    exact loadsConstant_one rfl (wroteOnlyReg_of_imp (wroteOnlyReg_writeReg_advance rd _ s) fun _ => hvalue)
  · split
    · next hlow => exact loadsConstant_one rfl (wroteOnlyReg_of_imp hupper fun _ => immSi20_of_low_zero hlow)
    · refine loadsConstant_two rfl hupper rfl (wroteOnlyReg_of_imp (wroteOnlyReg_writeReg_advance rd _ _) fun hrd => ?_)
      rw [hupper.reg rd, if_pos ⟨rfl, hrd⟩, immSi20_or_immUi12]

end Sys2Proof
end

section
/-! PROOFS. What user code can learn of the CSRs (R168): nothing, as long as it takes no exception. -/

namespace Sys2Proof

open Machine Safety

section
variable {s s' : State}

theorem writeReg_gpr_congr (h : s'.gpr = s.gpr) (rd : Reg) (v : Word) :
    (s'.writeReg rd v).gpr = (s.writeReg rd v).gpr := by
  simp only [State.writeReg]
  split
  · exact h
  · simp [h]

/-- The same register write in states of the same user view. -/
theorem userViewSame_writeReg_advance (h : UserViewSame s s') (rd : Reg) (v : Word) :
    UserViewSame (s.writeReg rd v).advance (s'.writeReg rd v).advance where
  gpr := writeReg_gpr_congr h.gpr rd v
  pc := by simp [h.pc]
  mem := by simp [h.mem]
  memMap := by simp [h.memMap]
  stored := by simp [h.stored]

theorem checkMap_congr (hmap : s'.memMap = s.memMap) (kind : AccessKind) (addr : Word) (pa n : Nat) :
    s'.checkMap kind addr pa n = s.checkMap kind addr pa n := by simp only [State.checkMap, hmap]

/-- A read looks at memory, its map and the translation mode only. -/
theorem memRead_congr (h : UserViewSame s s') (hda : s'.crmd.da = s.crmd.da) (hpg : s'.crmd.pg = s.crmd.pg)
    (kind : AccessKind) (addr : Word) (n : Nat) : s'.memRead kind addr n = s.memRead kind addr n := by
  simp only [State.memRead, State.translate, checkMap_congr h.memMap, h.mem, hda, hpg]

theorem fetch_congr (h : UserViewSame s s') (hda : s'.crmd.da = s.crmd.da) (hpg : s'.crmd.pg = s.crmd.pg) :
    s'.fetch = s.fetch := by
  simp only [State.fetch, memRead_congr h hda hpg, h.pc, h.stored]

/-- A write that is done in one state is done in the other, and leaves the same user view. -/
theorem memWrite_userView (h : UserViewSame s s') (hda : s'.crmd.da = s.crmd.da) (hpg : s'.crmd.pg = s.crmd.pg)
    {addr : Word} {n : Nat} {v : BitVec (8 * n)} {t : State} (ht : s.memWrite addr n v = .ok t) :
    ∃ t', s'.memWrite addr n v = .ok t' ∧ UserViewSame t t' := by
  obtain ⟨halign, hdirect, hunmapped, hmap, rfl⟩ := State.memWrite_ok ht
  refine ⟨_, by rw [memWrite_of_aligned halign ⟨hda.trans hdirect, hpg.trans hunmapped⟩, checkMap_congr h.memMap, hmap,
    Result.andThen], ?_⟩
  exact ⟨h.gpr, h.pc, by simp only [h.mem], h.memMap, by simp only [h.stored]⟩

/-- Outside PLV0 a privileged instruction enters PLV0, by the exception it takes. -/
theorem plv_of_privileged {t : State} {k : Host.Outcome State Fault Refusal} (hplv : s.crmd.plv ≠ 0#2)
    (h : s.privileged k = .next t) : t.crmd.plv = 0#2 := by
  rw [privileged_of_plv_ne hplv] at h
  obtain rfl : s.trap .ipe s.pc 0#32 = t := Host.Outcome.next.inj h
  rfl

theorem plv_of_raise {t : State} {e : Exception} {badv : Word} (h : s.raise e badv = .next t) : t.crmd.plv = 0#2 := by
  obtain rfl : s.trap e s.pc badv = t := Host.Outcome.next.inj h
  rfl

/-- A register instruction that computes the same value in both states. -/
theorem exists_next_userView {rd : Reg} {v v' : Word} {t : State} (hview : UserViewSame s s') (hv : v' = v)
    (h : Host.Outcome.next (s.writeReg rd v).advance = (.next t : Host.Outcome State Fault Refusal)) :
    ∃ t', Host.Outcome.next (s'.writeReg rd v').advance = (.next t' : Host.Outcome State Fault Refusal) ∧
      UserViewSame t t' := by
  obtain rfl : (s.writeReg rd v).advance = t := Host.Outcome.next.inj h
  exact ⟨_, rfl, hv ▸ userViewSame_writeReg_advance hview rd v⟩

/-- An instruction outside PLV0 that does not enter PLV0 does the same in both states, as far as user code can see. -/
theorem exec_userView {i : Instr} {t : State} (hplv : s.crmd.plv ≠ 0#2) (hview : UserViewSame s s')
    (hda : s'.crmd.da = s.crmd.da) (hpg : s'.crmd.pg = s.crmd.pg) (h : exec i s = .next t) (ht : t.crmd.plv ≠ 0#2) :
    ∃ t', exec i s' = .next t' ∧ UserViewSame t t' := by
  have hreg := State.readReg_congr hview.gpr
  cases i with
  | csrrd | csrwr | csrxchg | ertn => exact absurd (plv_of_privileged hplv h) ht
  | syscall | brk => exact absurd (plv_of_raise h) ht
  | ori rd rj ui12 => exact exists_next_userView hview (by rw [hreg]) h
  | lu12iw rd si20 => exact exists_next_userView hview rfl h
  | andn rd rj rk => exact exists_next_userView hview (by rw [hreg, hreg]) h
  | or rd rj rk => exact exists_next_userView hview (by rw [hreg, hreg]) h
  | ldw rd rj si12 =>
    rw [exec_ldw] at h ⊢
    rw [hreg, memRead_congr hview hda hpg]
    obtain ⟨v, hv, h⟩ | ⟨e, b, -, htrap⟩ := Result.finish_next h
    · rw [hv]
      exact exists_next_userView hview rfl h
    · exact absurd (htrap ▸ rfl) ht
  | stw rd rj si12 =>
    rw [exec_stw] at h ⊢
    rw [hreg, hreg]
    obtain ⟨u, hu, h⟩ | ⟨e, b, -, htrap⟩ := Result.finish_next h
    · obtain ⟨u', hu', hsame⟩ := memWrite_userView hview hda hpg hu
      obtain rfl : u.advance = t := Host.Outcome.next.inj h
      refine ⟨u'.advance, by rw [hu', Result.finish], ?_⟩
      exact ⟨hsame.gpr, by simp [hsame.pc], hsame.mem, hsame.memMap, hsame.stored⟩
    · exact absurd (htrap ▸ rfl) ht

end

/-- Settles O53. Both states fetch the same instruction, and what it does outside PLV0 is decided by the user view. -/
theorem userCannotReadCsrs : Obligations.UserCannotReadCsrs := by
  unfold Obligations.UserCannotReadCsrs
  intro s s' t hplv _ hview hda hpg hno hno' hstep ht
  have hview' : UserViewSame s.arrive s'.arrive := { hview with }
  obtain ⟨htakes, -⟩ | ⟨-, -, rfl⟩ | ⟨-, w, i, hw, hi, hexec⟩ := step_cases hstep
  · rw [hno] at htakes
    cases htakes
  · exact absurd rfl ht
  · have hw' : s'.arrive.fetch = .ok w := (fetch_congr hview' hda hpg).trans hw
    rw [step_of_not_takesInterrupt hno', hw', Result.finish, execWord, hi]
    exact exec_userView (s := s.arrive) hplv hview' hda hpg hexec ht

end Sys2Proof
end
